-- ==== Sys2Proof/Word.lean ====
section
/-!
DEFINITION. The word types of the block: bytes of the RAMs and the ROM, 32-bit register words and bus
offsets, and the 16-bit length field of a frame (00_scope.md section 5).
-/

namespace Sys2Proof

/-- A byte: 8 bits, read as an unsigned value 0 to 255 (40_checksum.md R67). -/
abbrev Byte := BitVec 8

/-- A 16-bit value: the frame's length field (30_encoding.md R54). -/
abbrev Half := BitVec 16

/-- A 32-bit word: a register, a command word or a bus offset (10_state.md R17, 20_memory.md R31). -/
abbrev Word := BitVec 32

end Sys2Proof
end

