-- ==== Sys2Proof/Config.lean ====
section
/-!
DEFINITION. What is fixed for one block: the parameters of 00_scope.md R12 (FRAME_RAM_SIZE and ROM, nothing
else), and the free value of 70_reset_and_hazards.md R128. The parameters stand in State as a field that no
transition writes, so that every statement about a state is a statement about every legal parameter.
-/

namespace Sys2Proof

/-- The parameters of the block (00_scope.md R12). -/
structure Config where
  /-- FRAME_RAM_SIZE, the capacity of the frame RAM in bytes (00_scope.md R8). -/
  frameRamSize : Nat
  /-- ROM[3] to ROM[16], in this order: entry j is ROM[3 + j] (00_scope.md R10). -/
  rom : Vector Byte 14
  /-- The legal sizes: 18 to 65536 inclusive (00_scope.md R8). -/
  legal : 18 ≤ frameRamSize ∧ frameRamSize ≤ 65536
  deriving DecidableEq, Repr

/-- PAYLOAD_RAM_SIZE = FRAME_RAM_SIZE - 18 (00_scope.md R9). -/
def Config.payloadRamSize (c : Config) : Nat := c.frameRamSize - 18

/-- The default parameters: FRAME_RAM_SIZE 256 (00_scope.md R8) and the default ROM of
41_frame_encoder.md R86. PRESUMED by the spec itself for the ROM (93_implementation_defined.md G1 to G6);
log 1. -/
def Config.default : Config where
  frameRamSize := 256
  rom := #v[0x10, 0x01, 0x00, 0x00, 0x00, 0x00, 0x00, 0x00, 0xFF, 0xFF, 0xFF, 0xFE, 0x00, 0x00]
  legal := by decide

/-- The byte a host read of FRM returns while BUSY = 1 (70_reset_and_hazards.md R128,
93_implementation_defined.md U4): any value, a new one for each draw. Free: nothing gives its value (log 4). -/
opaque Config.freeByte : Nat → Byte

end Sys2Proof
end

