-- ==== Sys2Proof/Machine/State.lean ====
section
/-!
DEFINITION. The state of the block (10_state.md), of the host that drives it and of the order in which the two
move, as plain data; the reasons a step can stop; the state after reset (70_reset_and_hazards.md R122).
-/

namespace Sys2Proof.Machine

/-- The completion codes of STATUS.ERR (30_encoding.md R60). The codes 0x5 to 0xF are never produced, so they
have no name here (93_implementation_defined.md U8). -/
inductive ErrCode where
  | ok
  | illegalCommand
  | invalidPayloadLength
  | frameTooLarge
  | invalidRange
  deriving DecidableEq, Repr

/-- The eight host-visible registers (10_state.md R17). -/
inductive Reg where
  | cmd
  | status
  | plen
  | cap
  | ckStart
  | ckEnd
  | resultLen
  | resultCksum
  deriving DecidableEq, Repr

/-- The two RAMs (10_state.md R24, R25). -/
inductive Ram where
  | pay
  | frm
  deriving DecidableEq, Repr

/-- The two agents (10_state.md R13). -/
inductive Agent where
  | host
  | engine
  deriving DecidableEq, Repr

/-- A host bus transaction: `MemRead(off, n)` and `MemWrite(off, n, v)` of n bytes at a block offset
(00_scope.md section 5, 30_encoding.md R64). The data of a 1-byte write is the low byte of v (log 13). -/
inductive Access where
  | read (n : Nat) (off : Word)
  | write (n : Nat) (off : Word) (v : Word)
  deriving DecidableEq, Repr

/-- What the outside world does next (log 5). -/
inductive Event where
  /-- One bus transaction (20_memory.md R38, R39). -/
  | access (a : Access)
  /-- The host's polling loop: `RD STATUS` until bit 0 of the value read is 0 (30_encoding.md R65). -/
  | wait
  /-- Power-on or an asserted reset input (70_reset_and_hazards.md R121). -/
  | reset
  deriving DecidableEq, Repr

/-- What the bus answers to a transaction that completes (20_memory.md R38, R39). -/
inductive Response where
  /-- A write completed. The host cannot see from it whether the write was ignored (70 R126). -/
  | written
  /-- The value of a register read. -/
  | word (v : Word)
  /-- The value of a RAM read. -/
  | byte (b : Byte)
  deriving DecidableEq, Repr

/-- The operands latched at issue (10_state.md R21): hidden engine state. -/
structure Latch where
  /-- L.OP, the command word written. -/
  op : Word
  /-- L.PLEN, read as a signed value. -/
  plen : Word
  /-- L.CAP, read as an unsigned value. -/
  cap : Word
  /-- L.CKS, read as an unsigned value. -/
  cks : Word
  /-- L.CKE, read as an unsigned value. -/
  cke : Word
  deriving DecidableEq, Repr

/-- A RAM: its written bytes by index, indexes strictly rising. An unlisted index holds no value (10_state.md R27);
what it reads as is said once, by `Memory.read`. -/
abbrev Memory := List Host.Cell

/-- The canonical form of a RAM: indexes strictly rising, so equal RAMs are equal lists. No entry can equal what an
unlisted index reads as, since that is no value. -/
abbrev Memory.wf (m : Memory) : Prop := (m.map Prod.fst).Pairwise (· < ·)

/-- The state of the block, of its host and of the schedule. -/
structure State where
  /-- The parameters (00_scope.md R12); no transition writes them. -/
  cfg : Config
  /-- STATUS bit 0 (10_state.md R19). -/
  busy : Bool
  /-- STATUS bit 1 (10_state.md R19). -/
  done : Bool
  /-- STATUS bits 7:4 (10_state.md R19, 30_encoding.md R60). -/
  err : ErrCode
  /-- PLEN (10_state.md R20). -/
  plen : Word
  /-- CAP (10_state.md R20). -/
  cap : Word
  /-- CK_START (10_state.md R20). -/
  ckStart : Word
  /-- CK_END (10_state.md R20). -/
  ckEnd : Word
  /-- RESULT_LEN (10_state.md R22). -/
  resultLen : Word
  /-- RESULT_CKSUM bits 7:0; bits 31:8 have no storage and read as 0 (10_state.md R23, log 12). -/
  resultCksum : Byte
  /-- The latched operands (10_state.md R21). -/
  latch : Latch
  /-- The payload RAM (10_state.md R25). -/
  pay : Memory
  /-- The frame RAM (10_state.md R24). -/
  frm : Memory
  /-- The model's own: what the outside world has still to do, in order (log 5). -/
  host : List Event
  /-- The model's own: which agent moves next, while both can (log 6). -/
  turns : List Agent
  /-- The model's own: the bus responses so far, newest first (log 7). -/
  heard : List Response
  /-- The model's own: how many free bytes have been drawn (log 4). -/
  draws : Nat
  deriving DecidableEq, Repr

/-- The reasons a step stops with a fault: the three places where the spec tells a model to fault. Each is safe:
the model stops where the hardware goes on. -/
inductive Fault where
  /-- Raised by a host transaction of a forbidden width or alignment, or at a reserved offset
  (20_memory.md R41, 93_implementation_defined.md U7, U16). No state is changed. Safe (log 8). -/
  | busError (off : Word)
  /-- Raised by a host read, or by ENCODE or CHECKSUM, that reads a RAM byte nothing has written since reset
  (10_state.md R27, 93_implementation_defined.md U1). Safe (log 3). -/
  | unwrittenRead (ram : Ram) (i : Nat)
  /-- Raised by a host write to PAY or FRM while BUSY = 1 (70_reset_and_hazards.md R127,
  93_implementation_defined.md U3). Safe (log 9). -/
  | ramWriteWhileBusy (ram : Ram) (i : Nat)
  deriving DecidableEq, Repr

/-- The reasons a step is refused. -/
inductive Refusal where
  /-- Raised by a refused arm of exec: the instruction has no meaning yet. Safe. No arm raises it. -/
  | notModelled (mnemonic : String)
  deriving DecidableEq, Repr

/-- The latched operands after reset: the spec leaves them unspecified (70 R122). DESIGN CHOICE: zero (log 2). -/
def Latch.reset : Latch := { op := 0, plen := 0, cap := 0, cks := 0, cke := 0 }

/-- The block right after reset (70_reset_and_hazards.md R122), with the default parameters (log 1), nothing for the
host to do, no turn fixed, nothing heard and nothing drawn (logs 4 to 7). -/
def State.reset : State where
  cfg := Config.default
  busy := false
  done := false
  err := .ok
  plen := 0
  cap := 0
  ckStart := 0
  ckEnd := 0
  resultLen := 0
  resultCksum := 0
  latch := Latch.reset
  pay := []
  frm := []
  host := []
  turns := []
  heard := []
  draws := 0

end Sys2Proof.Machine
end

