-- ==== Sys2Proof/Machine/Flags.lean ====
section
/-!
DEFINITION. The status word (10_state.md R19, 30_encoding.md R60, R61): the block's only flags are BUSY, DONE and
ERR (10_state.md R28). The checksum's carry is recorded nowhere (40_checksum.md R68).
-/

namespace Sys2Proof.Machine

/-- The 4-bit completion code (30_encoding.md R60). -/
def ErrCode.code : ErrCode → BitVec 4
  | .ok => 0x0
  | .illegalCommand => 0x1
  | .invalidPayloadLength => 0x2
  | .frameTooLarge => 0x3
  | .invalidRange => 0x4

/-- STATUS as the host reads it: bit 0 BUSY, bit 1 DONE, bits 7:4 ERR, the reserved bits 0 (10_state.md R19). -/
def statusWord (s : State) : Word :=
  (0 : BitVec 24) ++ s.err.code ++ (0 : BitVec 2) ++ BitVec.ofBool s.done ++ BitVec.ofBool s.busy

/-- The flags at issue: ERR 0x0, DONE 0, BUSY 1 (20_memory.md R44). -/
def flagsAtIssue (s : State) : State := { s with err := .ok, done := false, busy := true }

/-- The flags at completion: ERR the code, BUSY 0, DONE 1 (60_exceptions.md R108). -/
def flagsAtCompletion (s : State) (code : ErrCode) : State := { s with err := code, busy := false, done := true }

end Sys2Proof.Machine
end

