-- ==== Sys2Proof/Machine/Operands.lean ====
section
/-!
DEFINITION. The operand forms of the two commands (30_encoding.md R58), the length calculator
(41_frame_encoder.md R78 to R85), the constant-field ROM (R86, R87), and the offsets and the address map of the
host bus (10_state.md R17, 20_memory.md R35, R37).
-/

namespace Sys2Proof.Machine

/-! ### Latched operands -/

/-- `P = sint(L.PLEN)` (41_frame_encoder.md R79). -/
def payloadLength (l : Latch) : Int := l.plen.toInt

/-- `cap = min(uint(L.CAP), FRAME_RAM_SIZE)`, the effective capacity (41_frame_encoder.md R83). -/
def effectiveCapacity (c : Config) (l : Latch) : Nat := min l.cap.toNat c.frameRamSize

/-- `s = uint(L.CKS)` (40_checksum.md R75). -/
def rangeStart (l : Latch) : Nat := l.cks.toNat

/-- `e = uint(L.CKE)`, exclusive (40_checksum.md R75). -/
def rangeEnd (l : Latch) : Nat := l.cke.toNat

/-- A valid range of FRM: `s <= e <= FRAME_RAM_SIZE` (40_checksum.md R75). -/
abbrev validRange (c : Config) (l : Latch) : Prop := rangeStart l ≤ rangeEnd l ∧ rangeEnd l ≤ c.frameRamSize

/-! ### The length calculator -/

/-- `frameLength = 18 + P`, exact (41_frame_encoder.md R82). -/
def frameLengthOf (p : Int) : Int := 18 + p

/-- The verdict of the two checks, the sign checked first (41_frame_encoder.md R84). -/
def lengthVerdict (c : Config) (l : Latch) : ErrCode :=
  if payloadLength l < 0 then .invalidPayloadLength
  else if frameLengthOf (payloadLength l) > effectiveCapacity c l then .frameTooLarge
  else .ok

/-- The length field, `frameLength - 4`, as 16 bits (41_frame_encoder.md R85). -/
def lengthField (frameLength : Int) : Half := BitVec.ofInt 16 (frameLength - 4)

/-- `LEN_HI = length[15:8]` (41_frame_encoder.md R78). -/
def lenHi (length : Half) : Byte := length.extractLsb' 8 8

/-- `LEN_LO = length[7:0]` (41_frame_encoder.md R78). -/
def lenLo (length : Half) : Byte := length.extractLsb' 0 8

/-- The outputs of the length calculator (41_frame_encoder.md R78). All but the verdict are meaningful only when it
is OK. -/
structure LengthOut where
  p : Int
  frameLength : Int
  length : Half
  hi : Byte
  lo : Byte
  verdict : ErrCode
  deriving DecidableEq, Repr

/-- The length calculator: L.PLEN, L.CAP and FRAME_RAM_SIZE in, its six outputs out (41_frame_encoder.md R78). -/
def lengthCalculator (c : Config) (l : Latch) : LengthOut :=
  let p := payloadLength l
  let length := lengthField (frameLengthOf p)
  { p := p, frameLength := frameLengthOf p, length := length, hi := lenHi length, lo := lenLo length,
    verdict := lengthVerdict c l }

/-! ### The constant-field ROM -/

/-- `ROM[0] = 0x7E`, the start delimiter, no parameter (10_state.md R26). -/
def startDelimiter : Byte := 0x7E

/-- `ROM[k]` for k in 0, 3, ..., 16; the ROM holds no entry for another offset (41_frame_encoder.md R87). -/
def romByte (c : Config) (k : Nat) : Option Byte :=
  if k = 0 then some startDelimiter
  else if 3 ≤ k then c.rom[k - 3]?
  else none

/-! ### The address map of the host bus -/

/-- The offset of a register (10_state.md R17). -/
def Reg.offset : Reg → Word
  | .cmd => 0x00
  | .status => 0x04
  | .plen => 0x08
  | .cap => 0x0C
  | .ckStart => 0x10
  | .ckEnd => 0x14
  | .resultLen => 0x18
  | .resultCksum => 0x1C

/-- The register at an offset, if there is one (10_state.md R17, 20_memory.md R37). -/
def regAt : Nat → Option Reg
  | 0x00 => some .cmd
  | 0x04 => some .status
  | 0x08 => some .plen
  | 0x0C => some .cap
  | 0x10 => some .ckStart
  | 0x14 => some .ckEnd
  | 0x18 => some .resultLen
  | 0x1C => some .resultCksum
  | _ => none

/-- The first offset of a RAM window (20_memory.md R37). -/
def Ram.base : Ram → Nat
  | .pay => 0x00010000
  | .frm => 0x00020000

/-- The size of a RAM (00_scope.md R8, R9). -/
def Ram.size (c : Config) : Ram → Nat
  | .pay => c.payloadRamSize
  | .frm => c.frameRamSize

/-- The bus offset of byte i of a RAM (20_memory.md R37). -/
def Ram.offset (m : Ram) (i : Nat) : Word := BitVec.ofNat 32 (m.base + i)

/-- What a transaction addresses. -/
inductive Target where
  | reg (r : Reg)
  | ram (m : Ram) (i : Nat)
  deriving DecidableEq, Repr

/-- The index of an offset in a RAM's window, if it lies there (20_memory.md R37). -/
def Ram.index? (c : Config) (m : Ram) (off : Nat) : Option Nat :=
  if m.base ≤ off ∧ off < m.base + m.size c then some (off - m.base) else none

/-- What an access of n bytes at an offset addresses; none is a bus error (20_memory.md R35, R37, R41): registers
take aligned 4-byte accesses only, the RAMs take 1-byte accesses only, and every other offset is reserved. -/
def target (c : Config) (n : Nat) (off : Word) : Option Target :=
  if n = 4 then (regAt off.toNat).map .reg
  else if n = 1 then
    match Ram.pay.index? c off.toNat with
    | some i => some (.ram .pay i)
    | none => (Ram.frm.index? c off.toNat).map (.ram .frm)
  else none

end Sys2Proof.Machine
end

