-- ==== Sys2Proof/Machine/Ops.lean ====
section
/-!
DEFINITION. The named operations over the RAMs and the registers: reading and writing bytes, the checksum computer's
function, issuing a command (20_memory.md R44), completing one (60_exceptions.md R108, the block's trap entry; there is
no return instruction, R112), and reset (70_reset_and_hazards.md R121).
-/

namespace Sys2Proof.Machine

/-! ### RAM bytes -/

/-- The byte at an index; an unlisted index holds no value (10_state.md R27). -/
def Memory.read : Memory → Nat → Option Byte
  | [], _ => none
  | (a, b) :: m, i => if i = a then some b else Memory.read m i

/-- Write a byte, keeping the indexes strictly rising. -/
def Memory.write : Memory → Nat → Byte → Memory
  | [], i, v => [(i, v)]
  | (a, b) :: m, i, v =>
    if i < a then (i, v) :: (a, b) :: m
    else if i = a then (i, v) :: m
    else (a, b) :: Memory.write m i v

/-- Write the bytes of a list at rising indexes from i. -/
def Memory.writeAll : Memory → Nat → List Byte → Memory
  | m, _, [] => m
  | m, i, b :: bs => Memory.writeAll (Memory.write m i b) (i + 1) bs

/-- The n bytes from index i, or the first of their indexes that holds no value. -/
def Memory.readRange (m : Memory) : Nat → Nat → Except Nat (List Byte)
  | _, 0 => .ok []
  | i, n + 1 =>
    match Memory.read m i with
    | none => .error i
    | some b =>
      match Memory.readRange m (i + 1) n with
      | .error j => .error j
      | .ok bs => .ok (b :: bs)

/-! ### The checksum computer -/

/-- The unreduced sum S of unsigned byte values (40_checksum.md R67, R70); 0 for no byte. -/
def byteSum : List Byte → Nat
  | [] => 0
  | b :: bs => b.toNat + byteSum bs

/-- `S8`, the sum modulo 256 (40_checksum.md R68). -/
def sum8 (bs : List Byte) : Nat := byteSum bs % 256

/-- `(0xFF - S8) & 0xFF` (40_checksum.md R69). -/
def checksum (bs : List Byte) : Byte := BitVec.ofNat 8 ((0xFF - sum8 bs) &&& 0xFF)

/-! ### Registers -/

/-- A host read of a register (20_memory.md R39, 10_state.md R17 to R23). -/
def regRead (s : State) : Reg → Word
  | .cmd => 0
  | .status => statusWord s
  | .plen => s.plen
  | .cap => s.cap
  | .ckStart => s.ckStart
  | .ckEnd => s.ckEnd
  | .resultLen => s.resultLen
  | .resultCksum => s.resultCksum.setWidth 32

/-- Issue: latch the command word and the operand registers, clear ERR and DONE, set BUSY (20_memory.md R44). -/
def issue (s : State) (v : Word) : State :=
  flagsAtIssue { s with latch := { op := v, plen := s.plen, cap := s.cap, cks := s.ckStart, cke := s.ckEnd } }

/-- A host write of a register (20_memory.md R39): CMD issues while idle (R44) and is ignored while busy
(70_reset_and_hazards.md R126); a read-only register ignores the write (10_state.md R19, R22, R23). -/
def regWrite (s : State) (r : Reg) (v : Word) : State :=
  match r with
  | .cmd => if s.busy then s else issue s v
  | .status => s
  | .plen => { s with plen := v }
  | .cap => { s with cap := v }
  | .ckStart => { s with ckStart := v }
  | .ckEnd => { s with ckEnd := v }
  | .resultLen => s
  | .resultCksum => s

/-- The bytes of a RAM. -/
def ramOf (s : State) : Ram → Memory
  | .pay => s.pay
  | .frm => s.frm

/-- Write one byte of a RAM (20_memory.md R38). -/
def ramWrite (s : State) (m : Ram) (i : Nat) (b : Byte) : State :=
  match m with
  | .pay => { s with pay := Memory.write s.pay i b }
  | .frm => { s with frm := Memory.write s.frm i b }

/-! ### Completion and reset -/

/-- The results of a successful command, written before `complete(OK)` (41_frame_encoder.md R93, 40_checksum.md R75). -/
def setResults (s : State) (len : Word) (ck : Byte) : State := { s with resultLen := len, resultCksum := ck }

/-- `complete(code)`: on an error zero the results; then ERR, BUSY and DONE; nothing else (60_exceptions.md R108). -/
def complete (s : State) (code : ErrCode) : State :=
  flagsAtCompletion (if code = .ok then s else setResults s 0 0) code

/-- Reset of the block: every register to its reset value, the RAMs hold no value, the parameters stay
(70_reset_and_hazards.md R121 to R123). The host, the schedule, what was heard and the draw counter are no part of the
block (log 18). -/
def resetBlock (s : State) : State :=
  { State.reset with cfg := s.cfg, host := s.host, turns := s.turns, heard := s.heard, draws := s.draws }

end Sys2Proof.Machine
end

