-- ==== Sys2Proof/Machine/Bus.lean ====
section
/-!
DEFINITION. The host's moves: one bus transaction (20_memory.md R38 to R41, 70_reset_and_hazards.md R126 to R129), one
poll of a WAIT loop (30_encoding.md R65), or a reset (70 R121).
-/

namespace Sys2Proof.Machine

/-- The host is answered. -/
def hear (s : State) (r : Response) : State := { s with heard := r :: s.heard }

/-- A host read of one RAM byte. While busy, FRM answers a free byte, whatever it holds (70 R128, log 4), and PAY answers
its contents; a byte that holds no value stops the model (10_state.md R27). -/
def hostRamRead (s : State) (m : Ram) (i : Nat) : Host.Outcome State Fault Refusal :=
  if s.busy && m == .frm then .next (hear { s with draws := s.draws + 1 } (.byte (Config.freeByte s.draws)))
  else
    match Memory.read (ramOf s m) i with
    | none => .fault (.unwrittenRead m i)
    | some b => .next (hear s (.byte b))

/-- A host write of one RAM byte; while busy it has no defined outcome and stops the model (70 R127, log 9). -/
def hostRamWrite (s : State) (m : Ram) (i : Nat) (b : Byte) : Host.Outcome State Fault Refusal :=
  if s.busy then .fault (.ramWriteWhileBusy m i) else .next (hear (ramWrite s m i b) .written)

/-- One bus transaction. An access the map does not answer is a bus error (20_memory.md R41, log 8). -/
def hostAccess (s : State) : Access → Host.Outcome State Fault Refusal
  | .read n off =>
    match target s.cfg n off with
    | none => .fault (.busError off)
    | some (.reg r) => .next (hear s (.word (regRead s r)))
    | some (.ram m i) => hostRamRead s m i
  | .write n off v =>
    match target s.cfg n off with
    | none => .fault (.busError off)
    | some (.reg r) => .next (hear (regWrite s r v) .written)
    | some (.ram m i) => hostRamWrite s m i (v.setWidth 8)

/-- One poll of WAIT: `RD STATUS`; the loop goes on while bit 0 of the value read is 1 (30_encoding.md R65, log 16). -/
def hostPoll (s : State) : State :=
  let v := regRead s .status
  let heard := hear s (.word v)
  if v.getLsbD 0 then { heard with host := .wait :: heard.host } else heard

/-- The host's next move; with nothing left to do the state stays (log 5). -/
def hostMove (s : State) : Host.Outcome State Fault Refusal :=
  match s.host with
  | [] => .next s
  | .access a :: rest => hostAccess { s with host := rest } a
  | .wait :: rest => .next (hostPoll { s with host := rest })
  | .reset :: rest => .next (resetBlock { s with host := rest })

end Sys2Proof.Machine
end

