-- ==== Sys2Proof/Syntax.lean ====
section
/-!
DEFINITION. The commands of the block, one constructor per row of spec/opcode_table.json
(30_encoding.md R57). A command word has no sub-fields, so a command has no operands of its own: they are
the registers latched at issue (30_encoding.md R56).
-/

namespace Sys2Proof

/-- The commands (30_encoding.md R57). -/
inductive Instr where
  /-- ENCODE, command word 0x00000001 (41_frame_encoder.md R93). -/
  | encode
  /-- CHECKSUM, command word 0x00000002 (40_checksum.md R75). -/
  | checksum
  deriving DecidableEq, Repr

end Sys2Proof
end

