-- ==== Sys2Proof/Decode.lean ====
section
/-!
DEFINITION. The decoder and the encoder of command words (30_encoding.md R56 to R59), and the decoder's
answer to a word of the opcode table.
-/

namespace Sys2Proof

/-- The decoder's rejection, by name. -/
inductive DecodeError where
  /-- The word is no defined command (30_encoding.md R59). -/
  | illegalCommand (w : Word)
  deriving DecidableEq, Repr

/-- Decode a command word: the whole word is compared, no bit is ignored (30_encoding.md R56, R57, R59). -/
def decode (w : Word) : Except DecodeError Instr :=
  if w = 0x00000001#32 then .ok .encode
  else if w = 0x00000002#32 then .ok .checksum
  else .error (.illegalCommand w)

/-- The command word of a command (30_encoding.md R57). -/
def encode : Instr → Word
  | .encode => 0x00000001#32
  | .checksum => 0x00000002#32

/-- The command word whose low nbits bits are those of w and whose other bits are 0. A CMD32 word has 32 bits
and the table numbers its bits as a word's bits are numbered (30_encoding.md R62), so no byte order enters
(20_memory.md R34). -/
def commandWord (nbits w : Nat) : Word := BitVec.ofNat 32 (w % 2 ^ nbits)

/-- What the decoder reads from a word of the opcode table; none where it refuses, and none for a word longer
than the one command length (30_encoding.md R62, log 15). -/
def decodeTableWord (nbits w : Nat) : Option Instr :=
  if nbits ≤ 32 then
    match decode (commandWord nbits w) with
    | .ok i => some i
    | .error _ => none
  else none

end Sys2Proof
end

