-- ==== Sys2Proof/Machine/Checksum.lean ====
section
/-!
DEFINITION. The CHECKSUM command (40_checksum.md R75) and the streaming realisation of the checksum computer (R74).
-/

namespace Sys2Proof.Machine

/-- CHECKSUM (40_checksum.md R75): INVALID_RANGE unless `s <= e <= FRAME_RAM_SIZE`; else the checksum of
`FRM[s .. e-1]`. A byte of the range that holds no value stops the model (10_state.md R27). -/
def execChecksum (s : State) : Host.Outcome State Fault Refusal :=
  if validRange s.cfg s.latch then
    match Memory.readRange s.frm (rangeStart s.latch) (rangeEnd s.latch - rangeStart s.latch) with
    | .error i => .fault (.unwrittenRead .frm i)
    | .ok bytes => .next (complete (setResults s 0 (checksum bytes)) .ok)
  else .next (complete s .invalidRange)

/-- One addition of the 8-bit accumulator, modulo 256 (40_checksum.md R74). -/
def accAdd (acc b : Byte) : Byte := acc + b

/-- The streaming realisation: ACC cleared, each covered byte added, `~ACC` out (40_checksum.md R74). ACC is no state
(10_state.md R29). -/
def checksumStream (bs : List Byte) : Byte := ~~~(bs.foldl accAdd 0)

end Sys2Proof.Machine
end

