-- ==== Sys2Proof/Machine/Encode.lean ====
section
/-!
DEFINITION. The ENCODE command (41_frame_encoder.md R93), the byte-layout multiplexer (R88 to R92) and the single-pass
realisation (R96).
-/

namespace Sys2Proof.Machine

/-- The frame bytes at offsets 0 to 16 + P: delimiter, length field most significant byte first, constants, payload
(30_encoding.md R53, 41_frame_encoder.md R88, R92). -/
def frameBody (c : Config) (lc : LengthOut) (payload : List Byte) : List Byte :=
  startDelimiter :: lc.hi :: lc.lo :: (c.rom.toList ++ payload)

/-- The writes of a valid ENCODE (41_frame_encoder.md R93), P = lc.p: the payload is read from PAY, offsets 0 to 16 + P
are written, the checksum is computed over FRM[3 .. 16 + P] as written (R91), and stored at 17 + P. The new frame RAM and
the checksum byte. -/
def encodeFrame (c : Config) (lc : LengthOut) (pay frm : Memory) : Except Fault (Memory × Byte) :=
  match Memory.readRange pay 0 lc.p.toNat with
  | .error j => .error (.unwrittenRead .pay j)
  | .ok payload =>
    let body := Memory.writeAll frm 0 (frameBody c lc payload)
    match Memory.readRange body 3 (14 + lc.p.toNat) with
    | .error k => .error (.unwrittenRead .frm k)
    | .ok covered => .ok (Memory.write body (17 + lc.p.toNat) (checksum covered), checksum covered)

/-- ENCODE (41_frame_encoder.md R93): both checks before anything is read or written (R80, R84); then the whole frame,
RESULT_LEN = 18 + P and RESULT_CKSUM = the checksum byte. A payload byte that holds no value stops the model
(10_state.md R27). -/
def execEncode (s : State) : Host.Outcome State Fault Refusal :=
  let lc := lengthCalculator s.cfg s.latch
  if lc.verdict = .ok then
    match encodeFrame s.cfg lc s.pay s.frm with
    | .error f => .fault f
    | .ok (frm, chk) => .next (complete (setResults { s with frm := frm } (BitVec.ofInt 32 lc.frameLength) chk) .ok)
  else .next (complete s lc.verdict)

/-! ### The byte-layout multiplexer -/

/-- The multiplexer's select (30_encoding.md R63). Codes 0b101 to 0b111 are never produced and have no name. -/
inductive Sel where
  | rom
  | lenHi
  | lenLo
  | pay
  | chk
  deriving DecidableEq, Repr

/-- The 3-bit select codes (30_encoding.md R63). -/
def Sel.code : Sel → BitVec 3
  | .rom => 0b000
  | .lenHi => 0b001
  | .lenLo => 0b010
  | .pay => 0b011
  | .chk => 0b100

/-- The select function, for payload length n and frame offset k; nothing is selected past the frame
(41_frame_encoder.md R89). -/
def sel (n k : Nat) : Option Sel :=
  if k = 0 then some .rom
  else if k = 1 then some .lenHi
  else if k = 2 then some .lenLo
  else if k ≤ 16 then some .rom
  else if k ≤ 16 + n then some .pay
  else if k = 17 + n then some .chk
  else none

/-- The multiplexer output `FrameByte(k)` (41_frame_encoder.md R90): none if nothing is selected or the payload byte
holds no value. -/
def frameByte (c : Config) (lc : LengthOut) (pay : Memory) (chk : Byte) (k : Nat) : Option Byte :=
  match sel lc.p.toNat k with
  | some .rom => romByte c k
  | some .lenHi => some lc.hi
  | some .lenLo => some lc.lo
  | some .pay => Memory.read pay (k - 17)
  | some .chk => some chk
  | none => none

/-- The single pass (41_frame_encoder.md R96): `steps` offsets from k on, each given its multiplexer byte, with the
accumulator adding the bytes at 3 to 16 + P; the checksum byte offered to the multiplexer is always `~ACC`. -/
def passFrom (c : Config) (lc : LengthOut) (pay : Memory) :
    (steps k : Nat) → Memory → (acc : Byte) → Option (Memory × Byte)
  | 0, _, frm, acc => some (frm, ~~~acc)
  | steps + 1, k, frm, acc =>
    match frameByte c lc pay (~~~acc) k with
    | none => none
    | some b =>
      passFrom c lc pay steps (k + 1) (Memory.write frm k b) (if 3 ≤ k ∧ k ≤ 16 + lc.p.toNat then accAdd acc b else acc)

/-- The whole pass over k = 0 to 17 + P, the accumulator cleared (41_frame_encoder.md R96). -/
def singlePass (c : Config) (lc : LengthOut) (pay frm : Memory) : Option (Memory × Byte) :=
  passFrom c lc pay (18 + lc.p.toNat) 0 frm 0

end Sys2Proof.Machine
end

