-- ==== Sys2Proof/Machine/Dispatch.lean ====
section
/-! DEFINITION. One arm per command: the meaning that runs it. -/

namespace Sys2Proof.Machine

-- ENCODE: 41_frame_encoder.md R93; CHECKSUM: 40_checksum.md R75.
def exec (i : Instr) (s : State) : Host.Outcome State Fault Refusal :=
  match i with
  | .encode => Sys2Proof.Machine.execEncode s
  | .checksum => Sys2Proof.Machine.execChecksum s

end Sys2Proof.Machine
end

