-- ==== Sys2Proof/Machine/Illegal.lean ====
section
/-!
DEFINITION. The completion of an illegal command word (41_frame_encoder.md R97). Such a word is no row of the opcode
table: the decoder rejects it by name and the engine completes it.
-/

namespace Sys2Proof.Machine

/-- `complete(ILLEGAL_COMMAND)`: nothing is read, no RAM byte is written (41_frame_encoder.md R97). -/
def execIllegal (s : State) : Host.Outcome State Fault Refusal := .next (complete s .illegalCommand)

end Sys2Proof.Machine
end

