-- ==== Sys2Proof/Machine/Engine.lean ====
section
/-!
DEFINITION. The engine's step (10_state.md R14) and whose turn it is (20_memory.md R45, 70_reset_and_hazards.md R133).
-/

namespace Sys2Proof.Machine

/-- One engine step: the latched command, run to completion (10_state.md R14). -/
def engineStep (s : State) : Host.Outcome State Fault Refusal :=
  match decode s.latch.op with
  | .ok i => exec i s
  | .error (.illegalCommand _) => execIllegal s

/-- Whether the engine moves next. It can only while BUSY = 1 (10_state.md R14); then the next turn says, and it moves if
the host has nothing to do or the turns are used up (weak fairness, 70 R133, log 6). -/
def engineTurn (s : State) : Bool := s.busy && (s.host.isEmpty || s.turns.head? != some .host)

/-- The turn is used up. -/
def popTurn (s : State) : State := { s with turns := s.turns.tail }

end Sys2Proof.Machine
end

