-- ==== Sys2Proof/Machine/Step.lean ====
section
/-!
DEFINITION. One step of the block and its host: one engine step or one host move, each indivisible (20_memory.md R42,
R45).
-/

namespace Sys2Proof.Machine

/-- One transition of the total order of 20_memory.md R45. While busy each move uses up a turn (log 6). -/
def step (s : State) : Host.Outcome State Fault Refusal :=
  if engineTurn s then engineStep (popTurn s)
  else if s.busy then hostMove (popTurn s)
  else hostMove s

/-- The command word given to the engine as the command in flight, the engine's turn next: what a host write of it to
CMD does (20_memory.md R44), without the write (log 14). -/
def State.withFetchWord (s : State) (nbits w : Nat) : State :=
  { issue s (commandWord nbits w) with turns := .engine :: s.turns }

end Sys2Proof.Machine
end

