-- ==== Sys2Proof/Safety.lean ====
section
/-!
DEFINITION. What claims are stated in: the values of RAM bytes, when an engine step has all it reads, what the engine and
the host leave alone, the invariant every step keeps, and a run that stops nowhere.
-/

namespace Sys2Proof.Machine

/-- The unsigned value of a RAM byte; a byte that holds no value counts 0, so use it only under `Written`. -/
def Memory.val (m : Memory) (i : Nat) : Nat := ((Memory.read m i).getD 0).toNat

/-- Byte i of a RAM has been written since reset (10_state.md R27). -/
abbrev Memory.Written (m : Memory) (i : Nat) : Prop := (Memory.read m i).isSome

/-- Every listed byte lies inside a RAM of n bytes. -/
abbrev Memory.Below (m : Memory) (n : Nat) : Prop := ∀ x ∈ m, x.1 < n

/-- `P`, as a natural number; meaningful when it is not negative. -/
abbrev payloadCount (s : State) : Nat := (payloadLength s.latch).toNat

/-- The latched ENCODE passes both checks (41_frame_encoder.md R84). -/
abbrev EncodeValid (s : State) : Prop :=
  0 ≤ payloadLength s.latch ∧ 18 + payloadLength s.latch ≤ effectiveCapacity s.cfg s.latch

/-- The payload an ENCODE reads has been written (70_reset_and_hazards.md R125 (b)). -/
abbrev PayloadWritten (s : State) : Prop := ∀ j, j < payloadCount s → Memory.Written s.pay j

/-- The frame bytes a CHECKSUM reads have been written (70_reset_and_hazards.md R125 (c)). -/
abbrev RangeWritten (s : State) : Prop :=
  ∀ i, rangeStart s.latch ≤ i → i < rangeEnd s.latch → Memory.Written s.frm i

/-- Whatever the latched command reads has been written: its engine step has a defined result
(70_reset_and_hazards.md R125). -/
abbrev EngineReady (s : State) : Prop :=
  (s.latch.op = 0x00000001#32 → EncodeValid s → PayloadWritten s) ∧
  (s.latch.op = 0x00000002#32 → validRange s.cfg s.latch → RangeWritten s)

/-- Two states have the same host-writable registers, payload RAM, parameters, latched operands, host, schedule, responses
and draw counter: all that no engine step writes. They may differ in STATUS, RESULT_LEN, RESULT_CKSUM and FRM. -/
structure SameInputs (s t : State) : Prop where
  cfg : t.cfg = s.cfg
  plen : t.plen = s.plen
  cap : t.cap = s.cap
  ckStart : t.ckStart = s.ckStart
  ckEnd : t.ckEnd = s.ckEnd
  latch : t.latch = s.latch
  pay : t.pay = s.pay
  host : t.host = s.host
  turns : t.turns = s.turns
  heard : t.heard = s.heard
  draws : t.draws = s.draws

/-- Two states have the same parameters, registers and latched operands: all of the block but the RAMs. -/
structure SameRegisters (s t : State) : Prop where
  cfg : t.cfg = s.cfg
  busy : t.busy = s.busy
  done : t.done = s.done
  err : t.err = s.err
  plen : t.plen = s.plen
  cap : t.cap = s.cap
  ckStart : t.ckStart = s.ckStart
  ckEnd : t.ckEnd = s.ckEnd
  resultLen : t.resultLen = s.resultLen
  resultCksum : t.resultCksum = s.resultCksum
  latch : t.latch = s.latch

/-- The RAM holds a frame with payload length n: 41_frame_encoder.md R94 (b) to (e), every byte of it written, so this is
no claim about a byte that holds no value. -/
structure FrameHolds (c : Config) (pay frm : Memory) (n : Nat) : Prop where
  written : ∀ k, k < 18 + n → Memory.Written frm k
  length : 256 * Memory.val frm 1 + Memory.val frm 2 = (18 + n) - 4
  delimiter : Memory.read frm 0 = some 0x7E
  constants : ∀ j : Fin 14, Memory.read frm (3 + j) = some (c.rom[j])
  payload : ∀ j, j < n → Memory.read frm (17 + j) = Memory.read pay j
  covered : (∑ k ∈ Finset.Icc 3 (17 + n), Memory.val frm k) % 256 = 0xFF

/-- An access of n bytes at an offset that the address map answers: an aligned 4-byte access to the eight registers, or a
1-byte access inside a RAM window (20_memory.md R35, R37). -/
abbrev OnTheMap (c : Config) (n : Nat) (off : Word) : Prop :=
  (n = 4 ∧ off.toNat < 0x20 ∧ off.toNat % 4 = 0) ∨
  (n = 1 ∧ 0x00010000 ≤ off.toNat ∧ off.toNat < 0x00010000 + c.payloadRamSize) ∨
  (n = 1 ∧ 0x00020000 ≤ off.toNat ∧ off.toNat < 0x00020000 + c.frameRamSize)

/-- A transaction that the address map answers. -/
def Access.OnTheMap (c : Config) : Access → Prop
  | .read n off => Machine.OnTheMap c n off
  | .write n off _ => Machine.OnTheMap c n off

/-- The completion flags: BUSY 0, DONE 1 and the code (60_exceptions.md R108). -/
structure CompletedWith (t : State) (code : ErrCode) : Prop where
  busy : t.busy = false
  done : t.done = true
  err : t.err = code

/-- STATUS holds one of the values of 30_encoding.md R61: DONE and BUSY never together, and a code only with DONE. -/
structure StatusLegal (s : State) : Prop where
  notBoth : s.busy = true → s.done = false
  codeOnlyDone : s.done = false → s.err = .ok

/-- The results an error or CHECKSUM completion leaves (10_state.md R22, R23): while DONE, an error code comes with both
results 0. -/
abbrev ResultsLegal (s : State) : Prop := s.done = true → s.err ≠ .ok → s.resultLen = 0 ∧ s.resultCksum = 0

/-- RESULT_LEN is 0 or the length of a frame that fits (10_state.md R22, 41_frame_encoder.md R85). -/
abbrev ResultLenLegal (s : State) : Prop :=
  s.resultLen = 0 ∨ 18 ≤ s.resultLen.toNat ∧ s.resultLen.toNat ≤ s.cfg.frameRamSize

/-- The invariant of the block: both RAMs in canonical form and inside their sizes, STATUS and the results legal. -/
structure Inv (s : State) : Prop where
  payWf : Memory.wf s.pay
  frmWf : Memory.wf s.frm
  payBelow : Memory.Below s.pay s.cfg.payloadRamSize
  frmBelow : Memory.Below s.frm s.cfg.frameRamSize
  status : StatusLegal s
  results : ResultsLegal s
  resultLen : ResultLenLegal s

/-- k steps, stopping at the first fault or refusal. -/
def run : Nat → State → Host.Outcome State Fault Refusal
  | 0, s => .next s
  | k + 1, s =>
    match step s with
    | .next t => run k t
    | .fault f => .fault f
    | .refused r => .refused r

/-- A run of k steps stops nowhere. -/
def SafeRun (s : State) (k : Nat) : Prop := ∃ t, run k s = .next t

end Sys2Proof.Machine
end

