-- ==== Sys2Proof/Machine/Script.lean ====
section
/-!
DEFINITION. The host script language (30_encoding.md R64, R65): its lines and what they expand to. The block runs no
program; a script is a list of host events.
-/

namespace Sys2Proof.Machine

/-- A line of a host script: the transactions of 30_encoding.md R64 and the pseudo-instructions of R65. -/
inductive ScriptLine where
  /-- `WR <reg>, <imm32>`; a negative immediate stands for its two's-complement pattern. -/
  | wr (r : Reg) (imm : Int)
  /-- `RD <reg>` -/
  | rd (r : Reg)
  /-- `WRB PAY[<i>], <imm8>` and `WRB FRM[<i>], <imm8>` -/
  | wrb (m : Ram) (i : Nat) (imm : Byte)
  /-- `RDB PAY[<i>]` and `RDB FRM[<i>]` -/
  | rdb (m : Ram) (i : Nat)
  /-- `ENCODE` -/
  | encode
  /-- `CHECKSUM` -/
  | checksum
  /-- `WAIT` -/
  | wait
  /-- `LOADPAY <i>, b0, ..., bn` -/
  | loadPay (i : Nat) (bs : List Byte)
  /-- `LOADFRM <i>, b0, ..., bn` -/
  | loadFrm (i : Nat) (bs : List Byte)
  /-- `READFRM <i>, <n>` -/
  | readFrm (i n : Nat)
  deriving DecidableEq, Repr

/-- `MemWrite(off(reg), 4, imm32)` (30_encoding.md R64). -/
def writeReg (r : Reg) (imm : Int) : Event := .access (.write 4 r.offset (BitVec.ofInt 32 imm))

/-- `MemWrite(base + i, 1, imm8)` (30_encoding.md R64). -/
def writeByte (m : Ram) (i : Nat) (b : Byte) : Event := .access (.write 1 (m.offset i) (b.setWidth 32))

/-- `MemRead(base + i, 1)` (30_encoding.md R64). -/
def readByte (m : Ram) (i : Nat) : Event := .access (.read 1 (m.offset i))

/-- One `WRB` a byte, at rising indexes (30_encoding.md R65). -/
def loadBytes (m : Ram) : Nat → List Byte → List Event
  | _, [] => []
  | i, b :: bs => writeByte m i b :: loadBytes m (i + 1) bs

/-- The events a script line stands for (30_encoding.md R64, R65). -/
def ScriptLine.expand : ScriptLine → List Event
  | .wr r imm => [writeReg r imm]
  | .rd r => [.access (.read 4 r.offset)]
  | .wrb m i b => [writeByte m i b]
  | .rdb m i => [readByte m i]
  | .encode => [writeReg .cmd 0x00000001]
  | .checksum => [writeReg .cmd 0x00000002]
  | .wait => [.wait]
  | .loadPay i bs => loadBytes .pay i bs
  | .loadFrm i bs => loadBytes .frm i bs
  | .readFrm i n => (List.range n).map fun j => readByte .frm (i + j)

/-- A script as the host's list of events. -/
def expandScript (ls : List ScriptLine) : List Event := ls.flatMap ScriptLine.expand

end Sys2Proof.Machine
end

