-- ==== Sys2Proof/WellFormed.lean ====
section
/-!
DEFINITION. Well-formedness. A command has no fields, so nothing about one can be ill-formed (30_encoding.md R56). A bus
transaction and a script line have ranges to keep (30_encoding.md R64).
-/

namespace Sys2Proof

/-- Every command is well-formed: CMD32 has no sub-fields (30_encoding.md R56). -/
def Instr.wellFormed : Instr → Bool
  | .encode => true
  | .checksum => true

namespace Machine

/-- The data of a 1-byte write is a byte (20_memory.md R38); the other transactions are encodable as they stand. -/
def Access.wellFormed : Access → Bool
  | .read _ _ => true
  | .write n _ v => n != 1 || v.toNat < 256

/-- A 32-bit immediate: an unsigned pattern, or a negative decimal with a two's-complement pattern (30_encoding.md R64). -/
def immFits (imm : Int) : Bool := -(2 ^ 31) ≤ imm && imm < 2 ^ 32

/-- The bytes i to i + n - 1 lie in the RAM (20_memory.md R37). -/
def inRam (c : Config) (m : Ram) (i n : Nat) : Bool := i + n ≤ m.size c

/-- A script line keeps its ranges: immediates of 32 bits, RAM indexes inside the RAM, at least one byte to load
(30_encoding.md R64, R65). -/
def ScriptLine.wellFormed (c : Config) : ScriptLine → Bool
  | .wr _ imm => immFits imm
  | .rd _ => true
  | .wrb m i _ => inRam c m i 1
  | .rdb m i => inRam c m i 1
  | .encode => true
  | .checksum => true
  | .wait => true
  | .loadPay i bs => !bs.isEmpty && inRam c .pay i bs.length
  | .loadFrm i bs => !bs.isEmpty && inRam c .frm i bs.length
  | .readFrm i n => inRam c .frm i n

end Machine

end Sys2Proof
end

