-- ==== Sys2Proof/Certificates/Slice0/Obligations.lean ====
section
/-!
DEFINITION. The statements about the block, each from the numbered rules of spec/. Statements are over every state and
every legal parameter (00_scope.md R12), since the parameters stand in the state.
-/

open Sys2Proof Sys2Proof.Machine

/-! ### Encodings -/

/-- 30_encoding.md R57, R59: the two defined words, and a few of the illegal ones, 0x00000101 among them. -/
def Obligations.CommandWordsDecodeAsTabled : Prop :=
  decode 0b00000000000000000000000000000001#32 = .ok .encode ∧
  decode 0b00000000000000000000000000000010#32 = .ok .checksum ∧
  decode 0x00000000#32 = .error (.illegalCommand 0x00000000#32) ∧
  decode 0x00000003#32 = .error (.illegalCommand 0x00000003#32) ∧
  decode 0x00000101#32 = .error (.illegalCommand 0x00000101#32)

/-- 30_encoding.md R56, R57: decoding and encoding agree in both directions. -/
def Obligations.DecoderAndEncoderAgree : Prop :=
  (∀ i : Instr, i.wellFormed = true → decode (encode i) = .ok i) ∧
  (∀ (w : Word) (i : Instr), decode w = .ok i → w = encode i)

/-- 41_frame_encoder.md R97, 30_encoding.md R59: every other word completes ILLEGAL_COMMAND and writes no RAM; what it
leaves does not depend on the RAMs, so it reads nothing. -/
def Obligations.IllegalWordCompletesIllegalCommand : Prop :=
  ∀ s : State, s.latch.op ≠ 0x00000001#32 → s.latch.op ≠ 0x00000002#32 →
    decode s.latch.op = .error (.illegalCommand s.latch.op) ∧
    ∃ t, engineStep s = .next t ∧ CompletedWith t .illegalCommand ∧ statusWord t = 0x00000012#32 ∧
      t.resultLen = 0 ∧ t.resultCksum = 0 ∧ t.frm = s.frm ∧ SameInputs s t

/-! ### Registers and the status word -/

/-- 10_state.md R17 to R23, 20_memory.md R39: what a read of each register answers, its reserved bits 0; a read changes
nothing. -/
def Obligations.RegisterReadsAnswerTheirFields : Prop :=
  (∀ (s : State) (r : Reg), hostAccess s (.read 4 r.offset) = .next (hear s (.word (regRead s r)))) ∧
  (∀ s : State, regRead s .cmd = 0 ∧ regRead s .plen = s.plen ∧ regRead s .cap = s.cap ∧
    regRead s .ckStart = s.ckStart ∧ regRead s .ckEnd = s.ckEnd ∧ regRead s .resultLen = s.resultLen ∧
    (regRead s .resultCksum).extractLsb' 0 8 = s.resultCksum ∧
    (∀ j, 8 ≤ j → (regRead s .resultCksum).getLsbD j = false)) ∧
  (∀ s : State, (regRead s .status).getLsbD 0 = s.busy ∧ (regRead s .status).getLsbD 1 = s.done ∧
    (regRead s .status).extractLsb' 4 4 = s.err.code ∧ (regRead s .status).extractLsb' 2 2 = 0 ∧
    (∀ j, 8 ≤ j → (regRead s .status).getLsbD j = false))

/-- 20_memory.md R39, 10_state.md R19, R22, R23: a write to a read-only register completes normally and changes nothing. -/
def Obligations.ReadOnlyRegistersIgnoreWrites : Prop :=
  ∀ (s : State) (r : Reg) (v : Word), r = .status ∨ r = .resultLen ∨ r = .resultCksum →
    hostAccess s (.write 4 r.offset v) = .next (hear s .written)

/-- 10_state.md R20: an operand register takes the value written and nothing else changes, busy or not; a read answers it;
reset leaves 0. -/
def Obligations.OperandRegistersHoldTheLastWrite : Prop :=
  (∀ (s : State) (v : Word),
    hostAccess s (.write 4 0x08 v) = .next (hear { s with plen := v } .written) ∧
    hostAccess s (.write 4 0x0C v) = .next (hear { s with cap := v } .written) ∧
    hostAccess s (.write 4 0x10 v) = .next (hear { s with ckStart := v } .written) ∧
    hostAccess s (.write 4 0x14 v) = .next (hear { s with ckEnd := v } .written)) ∧
  (∀ (s : State) (r : Reg) (v : Word), r = .plen ∨ r = .cap ∨ r = .ckStart ∨ r = .ckEnd →
    regRead (resetBlock s) r = 0 ∧
    ∃ t, hostAccess s (.write 4 r.offset v) = .next t ∧ hostAccess t (.read 4 r.offset) = .next (hear t (.word v)))

/-- 30_encoding.md R61: under the invariant the host reads one of seven STATUS values, each with its meaning. -/
def Obligations.StatusReadsOneOfSevenValues : Prop :=
  ∀ s : State, Inv s →
    (s.busy = false ∧ s.done = false ∧ regRead s .status = 0x00000000#32) ∨
    (s.busy = true ∧ s.done = false ∧ regRead s .status = 0x00000001#32) ∨
    (CompletedWith s .ok ∧ regRead s .status = 0x00000002#32) ∨
    (CompletedWith s .illegalCommand ∧ regRead s .status = 0x00000012#32) ∨
    (CompletedWith s .invalidPayloadLength ∧ regRead s .status = 0x00000022#32) ∨
    (CompletedWith s .frameTooLarge ∧ regRead s .status = 0x00000032#32) ∨
    (CompletedWith s .invalidRange ∧ regRead s .status = 0x00000042#32)

/-! ### Issue -/

/-- 20_memory.md R44: a CMD write while idle latches the word and the operand registers and sets the flags, and changes
nothing else, whatever the word; while busy it is ignored; and until the command completes or a reset abandons it the
results keep their values. -/
def Obligations.CommandWriteIssuesWhileIdle : Prop :=
  (∀ (s : State) (v : Word),
    (s.busy = false → hostAccess s (.write 4 0x00 v) = .next (hear
      { s with
        latch := { op := v, plen := s.plen, cap := s.cap, cks := s.ckStart, cke := s.ckEnd }
        err := .ok, done := false, busy := true } .written)) ∧
    (s.busy = true → hostAccess s (.write 4 0x00 v) = .next (hear s .written))) ∧
  (∀ s t : State, s.busy = true → step s = .next t → t.busy = true →
    t.resultLen = s.resultLen ∧ t.resultCksum = s.resultCksum)

/-- 70_reset_and_hazards.md R126: a CMD write while busy changes no state of the block and queues nothing, and the status
word does not tell. -/
def Obligations.CommandWriteWhileBusyIsIgnored : Prop :=
  ∀ (s : State) (v : Word), s.busy = true →
    ∃ t, hostAccess s (.write 4 0x00 v) = .next t ∧ SameRegisters s t ∧ t.pay = s.pay ∧ t.frm = s.frm ∧
      t.host = s.host ∧ t.turns = s.turns ∧ regRead t .status = regRead s .status

/-- 70_reset_and_hazards.md R126, 60_exceptions.md R113: no host move but a reset touches a command in flight: the flags,
the latched operands and both RAMs stay. -/
def Obligations.HostMovesLeaveTheCommandInFlight : Prop :=
  ∀ s t : State, s.busy = true → engineTurn s = false → s.host.head? ≠ some .reset → step s = .next t →
    t.busy = true ∧ t.done = s.done ∧ t.err = s.err ∧ t.latch = s.latch ∧ t.pay = s.pay ∧ t.frm = s.frm ∧
    t.resultLen = s.resultLen ∧ t.resultCksum = s.resultCksum

/-- 70_reset_and_hazards.md R129: an operand register written while busy takes effect at once, the running command uses its
latched operands, and the next command issued sees the new value. -/
def Obligations.OperandWriteWhileBusySparesTheCommand : Prop :=
  ∀ (s : State) (r : Reg) (v : Word), s.busy = true → r = .plen ∨ r = .cap ∨ r = .ckStart ∨ r = .ckEnd →
    ∃ t, hostAccess s (.write 4 r.offset v) = .next t ∧ regRead t r = v ∧ t.latch = s.latch ∧ t.busy = true ∧
      (∀ u, engineStep s = .next u → ∃ u', engineStep t = .next u' ∧ u'.frm = u.frm ∧ u'.pay = u.pay ∧
        statusWord u' = statusWord u ∧ u'.resultLen = u.resultLen ∧ u'.resultCksum = u.resultCksum ∧
        ∀ w, (issue u' w).latch =
          { op := w, plen := regRead t .plen, cap := regRead t .cap, cks := regRead t .ckStart,
            cke := regRead t .ckEnd })

/-! ### The bus and the RAMs -/

/-- 20_memory.md R35: an access off the address map, of another width or misaligned, is a bus error; an access on the map
is not. -/
def Obligations.OnlyMappedAccessesAreAnswered : Prop :=
  ∀ (s : State) (n : Nat) (off v : Word),
    (¬OnTheMap s.cfg n off →
      hostAccess s (.read n off) = .fault (.busError off) ∧ hostAccess s (.write n off v) = .fault (.busError off)) ∧
    (OnTheMap s.cfg n off → ∀ a : Word,
      hostAccess s (.read n off) ≠ .fault (.busError a) ∧ hostAccess s (.write n off v) ≠ .fault (.busError a))

/-- 20_memory.md R38: while idle, a byte write sets that byte of that RAM and nothing else of the block; a byte read
answers a written byte and changes nothing of the block, of PAY in any state and of FRM while idle (the restrictions while
busy are 70_reset_and_hazards.md R127 and R128). -/
def Obligations.RamWindowsReadAndWriteBytes : Prop :=
  ∀ (s : State) (m : Ram) (i : Nat) (b : Byte), i < m.size s.cfg →
    (s.busy = false → ∃ t, hostAccess s (.write 1 (m.offset i) (b.setWidth 32)) = .next t ∧ SameRegisters s t ∧
      t.heard = .written :: s.heard ∧ Memory.read (ramOf t m) i = some b ∧
      (∀ j, j ≠ i → Memory.read (ramOf t m) j = Memory.read (ramOf s m) j) ∧
      (∀ m', m' ≠ m → ramOf t m' = ramOf s m')) ∧
    (m = .pay ∨ s.busy = false → Memory.read (ramOf s m) i = some b →
      hostAccess s (.read 1 (m.offset i)) = .next (hear s (.byte b)))

/-- 10_state.md R27, 93_implementation_defined.md U1: a host read of a byte that holds no value stops the model, of PAY in
any state and of FRM while idle. -/
def Obligations.UnwrittenByteReadFaults : Prop :=
  ∀ (s : State) (m : Ram) (i : Nat), i < m.size s.cfg → ¬Memory.Written (ramOf s m) i → m = .pay ∨ s.busy = false →
    hostAccess s (.read 1 (m.offset i)) = .fault (.unwrittenRead m i)

/-- 70_reset_and_hazards.md R127: a byte write to either RAM while busy stops the model. -/
def Obligations.RamWriteWhileBusyFaults : Prop :=
  ∀ (s : State) (m : Ram) (i : Nat) (v : Word), s.busy = true → i < m.size s.cfg →
    hostAccess s (.write 1 (m.offset i) v) = .fault (.ramWriteWhileBusy m i)

/-- 70_reset_and_hazards.md R128: a byte read of FRM while busy answers an unspecified byte, the free value of the draw
counter whatever the frame RAM holds, and changes nothing else of the block; of PAY it answers the byte. -/
def Obligations.FrameReadWhileBusyAnswersAFreeByte : Prop :=
  ∀ (s : State) (i : Nat), s.busy = true →
    (i < s.cfg.frameRamSize → hostAccess s (.read 1 (Ram.offset .frm i)) =
      .next (hear { s with draws := s.draws + 1 } (.byte (Config.freeByte s.draws)))) ∧
    (∀ b, i < s.cfg.payloadRamSize → Memory.read s.pay i = some b →
      hostAccess s (.read 1 (Ram.offset .pay i)) = .next (hear s (.byte b)))

/-- 20_memory.md R40: a read changes nothing of the block, whatever it reads; and, but for FRM while busy, the same read
again answers the same. -/
def Obligations.ReadsHaveNoSideEffect : Prop :=
  ∀ (s t : State) (n : Nat) (off : Word), hostAccess s (.read n off) = .next t →
    SameRegisters s t ∧ t.pay = s.pay ∧ t.frm = s.frm ∧ t.host = s.host ∧ t.turns = s.turns ∧
    ((∀ i, target s.cfg n off = some (.ram .frm i) → s.busy = false) →
      ∃ r, t = hear s r ∧ hostAccess t (.read n off) = .next (hear t r))

/-! ### Completion -/

/-- 60_exceptions.md R108: what `complete(code)` does, that nothing else changes, and that the engine then has no step. -/
def Obligations.CompletionRecordsOnlyTheCode : Prop :=
  ∀ (s : State) (code : ErrCode), engineTurn (complete s code) = false ∧
    (code = .ok → complete s code = { s with err := code, busy := false, done := true }) ∧
    (code ≠ .ok → complete s code =
      { s with resultLen := 0, resultCksum := 0, err := code, busy := false, done := true })

/-- 10_state.md R14: an engine step whose reads are all written ends with a completion. -/
def Obligations.EngineStepEndsInACompletion : Prop :=
  ∀ s : State, EngineReady s → ∃ t, engineStep s = .next t ∧ t.busy = false ∧ t.done = true

/-- 60_exceptions.md R109: an error completion changes STATUS and the results only, and the results are 0. -/
def Obligations.ErrorCompletionsArePrecise : Prop :=
  ∀ s t : State, engineStep s = .next t → t.err ≠ .ok →
    SameInputs s t ∧ t.frm = s.frm ∧ t.busy = false ∧ t.done = true ∧ t.resultLen = 0 ∧ t.resultCksum = 0

/-- 60_exceptions.md R106: one code per command, an illegal word before a negative length before a frame too large. -/
def Obligations.ErrorPriorityWithinACommand : Prop :=
  ∀ s t : State, engineStep s = .next t →
    (s.latch.op ≠ 0x00000001#32 → s.latch.op ≠ 0x00000002#32 → t.err = .illegalCommand) ∧
    (s.latch.op = 0x00000001#32 → payloadLength s.latch < 0 → t.err = .invalidPayloadLength) ∧
    (s.latch.op = 0x00000001#32 → 0 ≤ payloadLength s.latch →
      (effectiveCapacity s.cfg s.latch : Int) < 18 + payloadLength s.latch → t.err = .frameTooLarge) ∧
    (s.latch.op = 0x00000002#32 → t.err = .ok ∨ t.err = .invalidRange)

/-- 10_state.md R22: RESULT_LEN after a completion: the frame's length after a successful ENCODE, 0 in every other case;
host writes to it are ignored. -/
def Obligations.ResultLengthIsBytesWritten : Prop :=
  (∀ s t : State, engineStep s = .next t →
    (s.latch.op = 0x00000001#32 ∧ t.err = .ok → (t.resultLen.toNat : Int) = 18 + payloadLength s.latch) ∧
    (¬(s.latch.op = 0x00000001#32 ∧ t.err = .ok) → t.resultLen = 0)) ∧
  (∀ (s : State) (v : Word), hostAccess s (.write 4 0x18 v) = .next (hear s .written))

/-- 60_exceptions.md R112: while idle, ERR, DONE and the results keep their values but for an issue or a reset. -/
def Obligations.CompletionStaysUntilIssueOrReset : Prop :=
  ∀ s t : State, s.busy = false → step s = .next t → s.host.head? ≠ some .reset →
    (t.resultLen = s.resultLen ∧ t.resultCksum = s.resultCksum) ∧
    (t.busy = false ∧ t.done = s.done ∧ t.err = s.err ∨
      ∃ v, s.host.head? = some (.access (.write 4 0x00 v)) ∧ t.busy = true ∧ t.done = false ∧ t.err = .ok)

/-! ### ENCODE -/

/-- 41_frame_encoder.md R94: a valid ENCODE of a written payload completes OK and the frame RAM holds the frame, (a) to (e);
the bytes after it and all that no engine step writes are unchanged (41_frame_encoder.md R93). -/
def Obligations.EncodeWritesTheFrame : Prop :=
  ∀ s : State, EncodeValid s → PayloadWritten s →
    ∃ t, exec .encode s = .next t ∧ CompletedWith t .ok ∧ t.resultLen.toNat = 18 + payloadCount s ∧
      FrameHolds s.cfg s.pay t.frm (payloadCount s) ∧
      Memory.read t.frm (17 + payloadCount s) = some t.resultCksum ∧
      (∀ k, 18 + payloadCount s ≤ k → Memory.read t.frm k = Memory.read s.frm k) ∧ SameInputs s t

/-- 41_frame_encoder.md R84, R80: the two checks in their order, before any byte of FRM is written and whether or not the
payload is written; a frame that exactly fits is accepted. -/
def Obligations.EncodeChecksLengthThenCapacity : Prop :=
  ∀ s : State,
    (payloadLength s.latch < 0 → ∃ t, exec .encode s = .next t ∧ CompletedWith t .invalidPayloadLength ∧
      t.resultLen = 0 ∧ t.resultCksum = 0 ∧ t.frm = s.frm ∧ SameInputs s t) ∧
    (0 ≤ payloadLength s.latch → (effectiveCapacity s.cfg s.latch : Int) < 18 + payloadLength s.latch →
      ∃ t, exec .encode s = .next t ∧ CompletedWith t .frameTooLarge ∧
        t.resultLen = 0 ∧ t.resultCksum = 0 ∧ t.frm = s.frm ∧ SameInputs s t) ∧
    (0 ≤ payloadLength s.latch → 18 + payloadLength s.latch ≤ effectiveCapacity s.cfg s.latch →
      ∀ t, exec .encode s = .next t → t.err = .ok)

/-- 60_exceptions.md R110: an ENCODE writes the whole frame and completes OK, or writes no byte and completes with an
error. -/
def Obligations.EncodeIsAllOrNothing : Prop :=
  ∀ s t : State, exec .encode s = .next t →
    (CompletedWith t .ok ∧ FrameHolds s.cfg s.pay t.frm (payloadCount s)) ∨
    (t.done = true ∧ t.busy = false ∧ t.err ≠ .ok ∧ t.frm = s.frm)

/-- 41_frame_encoder.md R81: ENCODE never writes at or above the effective capacity, and a frame that does not fit is
rejected with FRAME_TOO_LARGE. -/
def Obligations.EncodeNeverWritesPastTheCapacity : Prop :=
  ∀ s : State,
    (∀ t, exec .encode s = .next t →
      ∀ k, effectiveCapacity s.cfg s.latch ≤ k → Memory.read t.frm k = Memory.read s.frm k) ∧
    (0 ≤ payloadLength s.latch → (effectiveCapacity s.cfg s.latch : Int) < 18 + payloadLength s.latch →
      ∃ t, exec .encode s = .next t ∧ t.err = .frameTooLarge)

/-- 10_state.md R27, 70_reset_and_hazards.md R125 (b): ENCODE stops the model exactly if it passes its checks and a payload
byte it reads holds no value, and then at such a byte; it is never refused. -/
def Obligations.EncodeStopsOnlyAtAnUnwrittenPayloadByte : Prop :=
  ∀ s : State,
    ((∃ f, exec .encode s = .fault f) ↔ EncodeValid s ∧ ¬PayloadWritten s) ∧
    (∀ f, exec .encode s = .fault f →
      ∃ j, f = .unwrittenRead .pay j ∧ j < payloadCount s ∧ ¬Memory.Written s.pay j) ∧
    (∀ r, exec .encode s ≠ .refused r)

/-- 41_frame_encoder.md R91: the checksum byte of a successful ENCODE is the checksum of the written bytes 3 to 16 + P,
which is that of the constants and the payload; with P = 0 and the default ROM it is 0xF3. -/
def Obligations.EncodeChecksumCoversConstantsAndPayload : Prop :=
  ∀ s t : State, exec .encode s = .next t → t.err = .ok →
    t.resultCksum.toNat = 0xFF - (∑ k ∈ Finset.Icc 3 (16 + payloadCount s), Memory.val t.frm k) % 256 ∧
    t.resultCksum.toNat = 0xFF -
      ((∑ j : Fin 14, (s.cfg.rom[j]).toNat) + ∑ j ∈ Finset.range (payloadCount s), Memory.val s.pay j) % 256 ∧
    (s.cfg.rom = Config.default.rom → payloadLength s.latch = 0 → t.resultCksum = 0xF3)

/-- 41_frame_encoder.md R95: ENCODE's frame, results and status depend on the payload length, the effective capacity, the
payload bytes and the ROM only. -/
def Obligations.EncodeIsDeterministicInItsInputs : Prop :=
  ∀ s s' t : State, s'.latch.plen = s.latch.plen →
    effectiveCapacity s'.cfg s'.latch = effectiveCapacity s.cfg s.latch → s'.cfg.rom = s.cfg.rom →
    (∀ j, j < payloadCount s → Memory.read s'.pay j = Memory.read s.pay j) → exec .encode s = .next t →
    ∃ t', exec .encode s' = .next t' ∧ t'.resultLen = t.resultLen ∧ t'.resultCksum = t.resultCksum ∧
      statusWord t' = statusWord t ∧
      (t.err = .ok → ∀ k, k < 18 + payloadCount s → Memory.read t'.frm k = Memory.read t.frm k)

/-- 70_reset_and_hazards.md R132: an ENCODE writes its own frame only, so after a shorter frame follows a longer one the bytes
past the shorter one still hold the longer one's bytes. -/
def Obligations.ShorterFrameLeavesStaleBytes : Prop :=
  ∀ s₁ t₁ s₂ t₂ : State, exec .encode s₁ = .next t₁ → t₁.err = .ok → s₂.frm = t₁.frm →
    exec .encode s₂ = .next t₂ → t₂.err = .ok → payloadCount s₂ < payloadCount s₁ →
    (∀ k, 18 + payloadCount s₂ ≤ k → Memory.read t₂.frm k = Memory.read t₁.frm k) ∧
    (∀ k, 18 + payloadCount s₂ ≤ k → k ≤ 17 + payloadCount s₁ → Memory.Written t₁.frm k)

/-- 41_frame_encoder.md R85: with both checks passed the length field is 14 + P, from 14 to 65532, untruncated, and its two
bytes are its halves. -/
def Obligations.LengthFieldNeverTruncates : Prop :=
  ∀ s : State, EncodeValid s →
    let lc := lengthCalculator s.cfg s.latch
    lc.verdict = .ok ∧ lc.frameLength = 18 + payloadLength s.latch ∧ lc.length.toNat = 14 + payloadCount s ∧
      14 ≤ lc.length.toNat ∧ lc.length.toNat ≤ 65532 ∧ (lc.length.toNat : Int) = lc.frameLength - 4 ∧
      256 * lc.hi.toNat + lc.lo.toNat = lc.length.toNat

/-- 41_frame_encoder.md R89, 30_encoding.md R63: the select function's cases; exactly one holds at each offset of the frame
and none past it; codes 5 to 7 are never produced. -/
def Obligations.MultiplexerSelectsOneSourcePerOffset : Prop :=
  (∀ n k : Nat,
    ((sel n k).isSome ↔ k ≤ 17 + n) ∧
    (sel n k = some .rom ↔ k = 0 ∨ 3 ≤ k ∧ k ≤ 16) ∧
    (sel n k = some .lenHi ↔ k = 1) ∧
    (sel n k = some .lenLo ↔ k = 2) ∧
    (sel n k = some .pay ↔ 17 ≤ k ∧ k ≤ 16 + n) ∧
    (sel n k = some .chk ↔ k = 17 + n)) ∧
  Sel.code .rom = 0b000 ∧ Sel.code .lenHi = 0b001 ∧ Sel.code .lenLo = 0b010 ∧ Sel.code .pay = 0b011 ∧
  Sel.code .chk = 0b100 ∧ (∀ x : Sel, (Sel.code x).toNat < 5)

/-- 41_frame_encoder.md R90: each byte a successful ENCODE wrote is the multiplexer's byte for its offset. -/
def Obligations.EveryFrameByteIsTheMultiplexersByte : Prop :=
  ∀ s t : State, exec .encode s = .next t → t.err = .ok → ∀ k, k < 18 + payloadCount s →
    (frameByte s.cfg (lengthCalculator s.cfg s.latch) s.pay t.resultCksum k).isSome ∧
    Memory.read t.frm k = frameByte s.cfg (lengthCalculator s.cfg s.latch) s.pay t.resultCksum k

/-- 41_frame_encoder.md R96: the single pass with a running accumulator produces ENCODE's frame RAM and checksum, and fails
exactly where ENCODE stops. -/
def Obligations.SinglePassRealisesEncode : Prop :=
  ∀ s : State, EncodeValid s →
    (∀ frm chk, singlePass s.cfg (lengthCalculator s.cfg s.latch) s.pay s.frm = some (frm, chk) ↔
      ∃ t, exec .encode s = .next t ∧ t.frm = frm ∧ t.resultCksum = chk) ∧
    (singlePass s.cfg (lengthCalculator s.cfg s.latch) s.pay s.frm = none ↔ ∃ f, exec .encode s = .fault f)

/-! ### CHECKSUM and the checksum function -/

/-- 40_checksum.md R75: CHECKSUM of a valid, written range gives its checksum, of an invalid range INVALID_RANGE; it writes
RESULT_CKSUM, RESULT_LEN and STATUS only. -/
def Obligations.ChecksumCommandResult : Prop :=
  ∀ s : State,
    (rangeStart s.latch ≤ rangeEnd s.latch → rangeEnd s.latch ≤ s.cfg.frameRamSize → RangeWritten s →
      ∃ t, exec .checksum s = .next t ∧ CompletedWith t .ok ∧ t.resultLen = 0 ∧
        t.resultCksum.toNat =
          0xFF - (∑ i ∈ Finset.Ico (rangeStart s.latch) (rangeEnd s.latch), Memory.val s.frm i) % 256 ∧
        t.frm = s.frm ∧ SameInputs s t) ∧
    (¬(rangeStart s.latch ≤ rangeEnd s.latch ∧ rangeEnd s.latch ≤ s.cfg.frameRamSize) →
      ∃ t, exec .checksum s = .next t ∧ CompletedWith t .invalidRange ∧ t.resultLen = 0 ∧ t.resultCksum = 0 ∧
        t.frm = s.frm ∧ SameInputs s t)

/-- 10_state.md R27, 70_reset_and_hazards.md R125 (c): CHECKSUM stops the model exactly if its range is valid and one of its
bytes holds no value, and then at such a byte; it is never refused. -/
def Obligations.ChecksumStopsOnlyAtAnUnwrittenFrameByte : Prop :=
  ∀ s : State,
    ((∃ f, exec .checksum s = .fault f) ↔ validRange s.cfg s.latch ∧ ¬RangeWritten s) ∧
    (∀ f, exec .checksum s = .fault f →
      ∃ i, f = .unwrittenRead .frm i ∧ rangeStart s.latch ≤ i ∧ i < rangeEnd s.latch ∧ ¬Memory.Written s.frm i) ∧
    (∀ r, exec .checksum s ≠ .refused r)

/-- 40_checksum.md R76: CHECKSUM's result depends on its range and the bytes of the range only. -/
def Obligations.ChecksumIsDeterministicInItsRange : Prop :=
  ∀ s s' t : State, s'.cfg = s.cfg → s'.latch.cks = s.latch.cks → s'.latch.cke = s.latch.cke →
    (∀ i, rangeStart s.latch ≤ i → i < rangeEnd s.latch → Memory.read s'.frm i = Memory.read s.frm i) →
    exec .checksum s = .next t →
    ∃ t', exec .checksum s' = .next t' ∧ t'.resultCksum = t.resultCksum ∧ statusWord t' = statusWord t

/-- 40_checksum.md R72 for a frame, 95_test_vectors.md W5: CHECKSUM over bytes 3 to 17 + P of a frame ENCODE just wrote
gives 0x00. -/
def Obligations.FreshFrameChecksToZero : Prop :=
  ∀ s t u : State, exec .encode s = .next t → t.err = .ok → u.frm = t.frm → u.cfg = t.cfg →
    rangeStart u.latch = 3 → rangeEnd u.latch = 18 + payloadCount s →
    ∃ v, exec .checksum u = .next v ∧ CompletedWith v .ok ∧ v.resultCksum = 0x00

/-- 40_checksum.md R72: with its checksum put after them, bytes sum to 0xFF modulo 256 and their checksum is 0x00. -/
def Obligations.ChecksumByteValidatesItsBytes : Prop :=
  ∀ bs : List Byte, byteSum (bs ++ [checksum bs]) % 256 = 0xFF ∧ checksum (bs ++ [checksum bs]) = 0x00

/-- 40_checksum.md R70: the equivalent forms of the checksum; the mask of R69 changes nothing. -/
def Obligations.ChecksumFormsAgree : Prop :=
  ∀ bs : List Byte,
    (checksum bs).toNat = 0xFF - byteSum bs % 256 ∧
    ((checksum bs).toNat : Int) = (0xFF - (byteSum bs : Int)) % 256 ∧
    checksum bs = ~~~(BitVec.ofNat 8 (byteSum bs)) ∧
    (0xFF - sum8 bs) &&& 0xFF = 0xFF - sum8 bs

/-- 40_checksum.md R71: every byte is some checksum; 0x00 and 0xFF exactly at the sums 0xFF and 0x00. -/
def Obligations.ChecksumTakesEveryByteValue : Prop :=
  (∀ v : Byte, ∃ bs, checksum bs = v) ∧
  (∀ bs : List Byte, (checksum bs = 0x00 ↔ sum8 bs = 0xFF) ∧ (checksum bs = 0xFF ↔ sum8 bs = 0x00))

/-- 40_checksum.md R73, R75: an empty range is valid up to the RAM's end and gives 0xFF, whatever the RAM holds. -/
def Obligations.EmptyRangeChecksToFF : Prop :=
  ∀ s : State, rangeStart s.latch = rangeEnd s.latch → rangeEnd s.latch ≤ s.cfg.frameRamSize →
    ∃ t, exec .checksum s = .next t ∧ CompletedWith t .ok ∧ t.resultCksum = 0xFF

/-- 40_checksum.md R74: the streaming accumulator computes the checksum, and the order of the bytes does not matter. -/
def Obligations.StreamingAccumulatorRealisesChecksum : Prop :=
  (∀ bs : List Byte, checksumStream bs = checksum bs) ∧
  (∀ bs bs' : List Byte, bs.Perm bs' → checksum bs = checksum bs')

/-! ### What an engine step reads and writes -/

/-- 10_state.md R24, R25: an engine step never writes PAY nor any operand register; it writes FRM only in a successful
ENCODE, and then the bytes 0 to 17 + P only. -/
def Obligations.EngineStepFrame : Prop :=
  ∀ s t : State, engineStep s = .next t →
    SameInputs s t ∧
    (t.frm = s.frm ∨
      (s.latch.op = 0x00000001#32 ∧ EncodeValid s ∧ t.err = .ok ∧
        ∀ k, 18 + payloadCount s ≤ k → Memory.read t.frm k = Memory.read s.frm k))

/-- 10_state.md R21: the engine step reads the latched operands, never the host registers: with other values in PLEN, CAP,
CK_START and CK_END it does the same and leaves them alone. -/
def Obligations.EngineReadsOnlyTheLatchedOperands : Prop :=
  ∀ (s t : State) (p c a b : Word), engineStep s = .next t →
    engineStep { s with plen := p, cap := c, ckStart := a, ckEnd := b } =
      .next { t with plen := p, cap := c, ckStart := a, ckEnd := b }

/-- 10_state.md R30: no value of an earlier command is carried into the next one: with other results and status flags
before it, an engine step leaves the same state. -/
def Obligations.NoCommandReadsAnEarlierResult : Prop :=
  ∀ (s t : State) (len : Word) (ck : Byte) (busy done : Bool) (err : ErrCode), engineStep s = .next t →
    engineStep { s with resultLen := len, resultCksum := ck, busy := busy, done := done, err := err } = .next t

/-- 10_state.md R21, 93_implementation_defined.md U10: while idle no step reads the latched operands: with other values the
step does the same, and they are kept or overwritten alike. -/
def Obligations.IdleStepIgnoresTheLatchedOperands : Prop :=
  ∀ (s : State) (l : Latch), s.busy = false →
    (∀ t, step s = .next t → step { s with latch := l } = .next { t with latch := l } ∨
      step { s with latch := l } = .next t) ∧
    (∀ f, step s = .fault f → step { s with latch := l } = .fault f)

/-! ### Reset -/

/-- 70_reset_and_hazards.md R121 to R123: a reset sets every register to its reset value, leaves no RAM byte a value, keeps
the parameters, and abandons a command in flight. Nothing is said of the latched operands, which R122 leaves
unspecified. -/
def Obligations.ResetValuesAndAbandonment : Prop :=
  (∀ (s : State) (rest : List Event), s.host = .reset :: rest → engineTurn s = false →
    ∃ t, step s = .next t ∧ t.busy = false ∧ t.done = false ∧ t.err = .ok ∧ (∀ r, regRead t r = 0) ∧
      (∀ (m : Ram) (i : Nat), Memory.read (ramOf t m) i = none) ∧ t.cfg = s.cfg ∧ t.host = rest) ∧
  (∀ r, regRead State.reset r = 0) ∧ State.reset.busy = false ∧ State.reset.done = false ∧
  (∀ (m : Ram) (i : Nat), Memory.read (ramOf State.reset m) i = none)

/-! ### The step as a whole -/

/-- 10_state.md R14: on the engine's turn, a step runs the command the latched word decodes to, or the illegal-command
completion; only the turn is used up besides. -/
def Obligations.StepRunsTheDecodedCommand : Prop :=
  ∀ s : State, engineTurn s = true →
    s.busy = true ∧
    (∀ i, decode s.latch.op = .ok i → step s = exec i { s with turns := s.turns.tail }) ∧
    (∀ e, decode s.latch.op = .error e → step s = .next (complete { s with turns := s.turns.tail } .illegalCommand))

/-- 20_memory.md R44, 10_state.md R14: a word placed as the command in flight is the command the next step runs, with the
operand registers latched. -/
def Obligations.PlacedWordIsTheNextCommand : Prop :=
  ∀ (s : State) (nbits w : Nat) (i : Instr), decodeTableWord nbits w = some i →
    step (s.withFetchWord nbits w) = exec i (issue s (encode i))

/-- 10_state.md R14, R16: while idle the engine has no step; with nothing for the host to do the state stays. -/
def Obligations.EngineHasNoStepWhileIdle : Prop :=
  ∀ s : State, s.busy = false → engineTurn s = false ∧ step s = hostMove s ∧ (s.host = [] → step s = .next s)

/-- 20_memory.md R45, 93_implementation_defined.md U17: a CMD write waiting while a command is in flight may come before the
engine step, and is then ignored, or after it, and then issues; the model admits both orders. -/
def Obligations.BothOrdersOfASecondCommandAreAdmitted : Prop :=
  ∀ (s : State) (v : Word) (rest : List Event) (ts : List Agent), s.busy = true →
    s.host = .access (.write 4 0x00 v) :: rest →
    (s.turns = .host :: ts →
      step s = .next { s with host := rest, turns := ts, heard := .written :: s.heard }) ∧
    (s.turns = .engine :: ts →
      step s = engineStep { s with turns := ts } ∧
      ∀ t, step s = .next t → step t = .next (hear (issue { t with host := rest } v) .written))

/-- 70_reset_and_hazards.md R133: a WAIT on a command in flight whose reads are all written ends, after at most one poll a
remaining turn, the engine step, and the poll that sees DONE. The turn list is the model's choice (log 6), and so is WAIT as
one event (log 16). -/
def Obligations.WaitEndsUnderEverySchedule : Prop :=
  ∀ (s : State) (rest : List Event), s.busy = true → s.host = .wait :: rest → EngineReady s →
    ∃ k t, k ≤ s.turns.length + 2 ∧ run k s = .next t ∧ t.host = rest ∧ t.busy = false ∧
      t.done = true ∧ t.heard.head? = some (.word (statusWord t))

/-- 60_exceptions.md R99: a step stops only where the spec tells a model to: it is never refused, and a fault is the
engine's unwritten read, or a host transaction's bus error, unwritten read or RAM write while busy. -/
def Obligations.StepStopsOnlyWhereTheSpecSays : Prop :=
  ∀ s : State, (∀ r, step s ≠ .refused r) ∧
    (∀ f, step s = .fault f →
      (engineTurn s = true ∧ ¬EngineReady s ∧ ∃ m i, f = .unwrittenRead m i) ∨
      (∃ a rest, engineTurn s = false ∧ s.host = .access a :: rest ∧
        ((∃ off, f = .busError off) ∨
          (∃ m i, f = .unwrittenRead m i ∧ ¬Memory.Written (ramOf s m) i ∧ i < m.size s.cfg) ∨
          (∃ m i, f = .ramWriteWhileBusy m i ∧ s.busy = true ∧ i < m.size s.cfg))))

/-- 10_state.md R26, 00_scope.md R12: nothing changes the parameters. -/
def Obligations.ParametersNeverChange : Prop :=
  ∀ s t : State, step s = .next t → t.cfg = s.cfg

/-- The invariant of the block is kept by every step: the RAMs canonical and inside their sizes (10_state.md R24, R25), the
STATUS and result values legal (30_encoding.md R61, 10_state.md R22, R23). -/
def Obligations.EveryStepKeepsTheInvariant : Prop :=
  ∀ s t : State, Inv s → step s = .next t → Inv t

/-- The invariant holds after reset. -/
def Obligations.InvariantHoldsAtReset : Prop := Inv State.reset

/-! ### Host scripts -/

/-- 30_encoding.md R64, R65: a well-formed script line expands to well-formed transactions on the address map. -/
def Obligations.WellFormedScriptLinesStayOnTheMap : Prop :=
  ∀ (c : Config) (l : ScriptLine) (a : Access), l.wellFormed c = true → .access a ∈ l.expand →
    a.wellFormed = true ∧ a.OnTheMap c
end

