-- ==== Sys2Proof/Laws/Memory.lean ====
section
/-!
SUPPORT. The laws of RAM bytes: a read after a write, ranges, and the canonical form, which every operation keeps.
-/

namespace Sys2Proof.Machine.Memory

/-! ### Reading and writing one byte -/

@[simp] theorem read_nil (i : Nat) : read [] i = none := rfl

theorem read_cons (a : Nat) (b : Byte) (m : Memory) (i : Nat) :
    read ((a, b) :: m) i = if i = a then some b else read m i := rfl

@[simp] theorem read_write_same (m : Memory) (i : Nat) (v : Byte) : read (write m i v) i = some v := by
  induction m with
  | nil => simp [write, read]
  | cons x m ih =>
    obtain ⟨a, b⟩ := x
    unfold write
    split
    · simp [read]
    · split
      · simp [read]
      · rw [read_cons, if_neg ‹_›, ih]

theorem read_write_other (m : Memory) {i j : Nat} (v : Byte) (h : j ≠ i) : read (write m i v) j = read m j := by
  induction m with
  | nil => simp [write, read, h]
  | cons x m ih =>
    obtain ⟨a, b⟩ := x
    unfold write
    split
    · rw [read_cons, if_neg h]
    · split
      · subst i; simp [read, h]
      · rw [read_cons, read_cons, ih]

theorem read_write (m : Memory) (i j : Nat) (v : Byte) :
    read (write m i v) j = if j = i then some v else read m j := by
  split
  · subst j; exact read_write_same m i v
  · exact read_write_other m v ‹_›

/-! ### The canonical form -/

theorem mem_write {m : Memory} {i : Nat} {v : Byte} {x : Host.Cell} (h : x ∈ write m i v) : x = (i, v) ∨ x ∈ m := by
  induction m with
  | nil => simpa [write] using h
  | cons y m ih =>
    obtain ⟨a, b⟩ := y
    unfold write at h
    split at h
    · simpa using h
    · split at h
      · rcases List.mem_cons.1 h with h | h
        · exact .inl h
        · exact .inr (List.mem_cons_of_mem _ h)
      · rcases List.mem_cons.1 h with h | h
        · exact .inr (by simp [h])
        · exact (ih h).imp id (List.mem_cons_of_mem _)

theorem wf_cons {a : Nat} {b : Byte} {m : Memory} : wf ((a, b) :: m) ↔ (∀ x ∈ m, a < x.1) ∧ wf m := by
  simp [wf, List.pairwise_cons]

theorem write_wf {m : Memory} (i : Nat) (v : Byte) (h : wf m) : wf (write m i v) := by
  induction m with
  | nil => simp [write, wf]
  | cons x m ih =>
    obtain ⟨a, b⟩ := x
    obtain ⟨hlt, hm⟩ := wf_cons.1 h
    unfold write
    split
    · rename_i hia
      refine wf_cons.2 ⟨fun x hx => ?_, h⟩
      rcases List.mem_cons.1 hx with rfl | hx
      · exact hia
      · exact Nat.lt_trans hia (hlt x hx)
    · split
      · subst i; exact wf_cons.2 ⟨hlt, hm⟩
      · refine wf_cons.2 ⟨fun x hx => ?_, ih hm⟩
        rcases mem_write hx with rfl | hx
        · show a < i; omega
        · exact hlt x hx

theorem write_below {m : Memory} {n i : Nat} (v : Byte) (h : Below m n) (hi : i < n) : Below (write m i v) n := by
  intro x hx
  rcases mem_write hx with rfl | hx
  · exact hi
  · exact h x hx

/-- A byte is written exactly if its index is listed, so a RAM inside its size holds nothing past it. -/
theorem read_eq_none_of_below {m : Memory} {n i : Nat} (h : Below m n) (hi : n ≤ i) : read m i = none := by
  induction m with
  | nil => rfl
  | cons x m ih =>
    obtain ⟨a, b⟩ := x
    have ha : a < n := h (a, b) (by simp)
    rw [read_cons, if_neg (by omega), ih fun y hy => h y (List.mem_cons_of_mem _ hy)]

/-! ### Writing the bytes of a list -/

theorem read_writeAll (m : Memory) (i : Nat) (bs : List Byte) (j : Nat) :
    read (writeAll m i bs) j = if i ≤ j ∧ j < i + bs.length then bs[j - i]? else read m j := by
  induction bs generalizing m i with
  | nil => simp only [writeAll, List.length_nil]; rw [if_neg (by omega)]
  | cons b bs ih =>
    rw [writeAll, ih, List.length_cons]
    by_cases hji : j = i
    · subst j
      rw [if_neg (by omega), if_pos (by omega), read_write_same]; simp
    · rw [read_write_other _ _ hji]
      by_cases hr : i + 1 ≤ j ∧ j < i + 1 + bs.length
      · rw [if_pos hr, if_pos (by omega), show j - i = (j - (i + 1)) + 1 by omega, List.getElem?_cons_succ]
      · rw [if_neg hr, if_neg (by omega)]

theorem writeAll_wf {m : Memory} (i : Nat) (bs : List Byte) (h : wf m) : wf (writeAll m i bs) := by
  induction bs generalizing m i with
  | nil => exact h
  | cons b bs ih => exact ih (i + 1) (write_wf i b h)

theorem writeAll_below {m : Memory} {n i : Nat} {bs : List Byte} (h : Below m n) (hi : i + bs.length ≤ n) :
    Below (writeAll m i bs) n := by
  induction bs generalizing m i with
  | nil => exact h
  | cons b bs ih =>
    rw [List.length_cons] at hi
    exact ih (write_below b h (by omega)) (by omega)

/-! ### Reading a range -/

/-- A range reads as a list exactly if the list has the range's length and each byte is the RAM's byte. -/
theorem readRange_eq_ok {m : Memory} {i n : Nat} {bs : List Byte} :
    readRange m i n = .ok bs ↔ bs.length = n ∧ ∀ k, k < n → read m (i + k) = bs[k]? := by
  induction n generalizing i bs with
  | zero =>
    constructor
    · intro h
      have : bs = [] := by simpa [readRange] using h.symm
      subst this
      exact ⟨rfl, fun k hk => absurd hk (Nat.not_lt_zero k)⟩
    · rintro ⟨h, -⟩
      rw [List.length_eq_zero_iff.1 h]; rfl
  | succ n ih =>
    rw [readRange]
    constructor
    · intro h
      split at h
      · exact nomatch h
      · rename_i b hb
        split at h
        · exact nomatch h
        · rename_i bs' hbs
          obtain rfl : b :: bs' = bs := by simpa using h
          obtain ⟨hl, hr⟩ := ih.1 hbs
          refine ⟨by simp [hl], fun k hk => ?_⟩
          cases k with
          | zero => simpa using hb
          | succ k =>
            rw [show i + (k + 1) = i + 1 + k by omega, hr k (by omega), List.getElem?_cons_succ]
    · rintro ⟨hl, hr⟩
      cases bs with
      | nil => simp at hl
      | cons b bs =>
        have hb : read m i = some b := by simpa using hr 0 (by omega)
        have hbs : readRange m (i + 1) n = .ok bs := by
          refine ih.2 ⟨by simpa using hl, fun k hk => ?_⟩
          have := hr (k + 1) (by omega)
          rwa [List.getElem?_cons_succ, show i + (k + 1) = i + 1 + k by omega] at this
        rw [hb, hbs]

/-- A range fails to read only at an index of it that holds no value. -/
theorem readRange_eq_error {m : Memory} {i n j : Nat} (h : readRange m i n = .error j) :
    i ≤ j ∧ j < i + n ∧ read m j = none := by
  induction n generalizing i with
  | zero => exact nomatch h
  | succ n ih =>
    rw [readRange] at h
    split at h
    · rename_i hb
      obtain rfl : i = j := by simpa using h
      exact ⟨Nat.le_refl i, by omega, hb⟩
    · split at h
      · rename_i j' hj
        obtain rfl : j' = j := by simpa using h
        obtain ⟨h1, h2, h3⟩ := ih hj
        exact ⟨by omega, by omega, h3⟩
      · exact nomatch h

/-- A range of written bytes reads as a list. -/
theorem exists_readRange {m : Memory} {i n : Nat} (h : ∀ k, i ≤ k → k < i + n → Written m k) :
    ∃ bs, readRange m i n = .ok bs := by
  cases hr : readRange m i n with
  | ok bs => exact ⟨bs, rfl⟩
  | error j =>
    obtain ⟨h1, h2, h3⟩ := readRange_eq_error hr
    have := h j h1 h2
    simp [Written, h3] at this

/-- Two RAMs that agree on a range read alike there. -/
theorem readRange_congr {m m' : Memory} {i n : Nat} (h : ∀ k, i ≤ k → k < i + n → read m k = read m' k) :
    readRange m i n = readRange m' i n := by
  induction n generalizing i with
  | zero => rfl
  | succ n ih =>
    rw [readRange, readRange, h i (Nat.le_refl i) (by omega), ih fun k h1 h2 => h k (by omega) (by omega)]

end Sys2Proof.Machine.Memory
end

