-- ==== Sys2Proof/Laws/State.lean ====
section
/-!
SUPPORT. One lemma per field per update of the state, each true by definition, so that no later proof unfolds a record
update.
-/

namespace Sys2Proof.Machine

variable (s : State)

/-! ### hear -/

@[simp] theorem hear_cfg (r : Response) : (hear s r).cfg = s.cfg := rfl
@[simp] theorem hear_busy (r : Response) : (hear s r).busy = s.busy := rfl
@[simp] theorem hear_done (r : Response) : (hear s r).done = s.done := rfl
@[simp] theorem hear_err (r : Response) : (hear s r).err = s.err := rfl
@[simp] theorem hear_plen (r : Response) : (hear s r).plen = s.plen := rfl
@[simp] theorem hear_cap (r : Response) : (hear s r).cap = s.cap := rfl
@[simp] theorem hear_ckStart (r : Response) : (hear s r).ckStart = s.ckStart := rfl
@[simp] theorem hear_ckEnd (r : Response) : (hear s r).ckEnd = s.ckEnd := rfl
@[simp] theorem hear_resultLen (r : Response) : (hear s r).resultLen = s.resultLen := rfl
@[simp] theorem hear_resultCksum (r : Response) : (hear s r).resultCksum = s.resultCksum := rfl
@[simp] theorem hear_latch (r : Response) : (hear s r).latch = s.latch := rfl
@[simp] theorem hear_pay (r : Response) : (hear s r).pay = s.pay := rfl
@[simp] theorem hear_frm (r : Response) : (hear s r).frm = s.frm := rfl
@[simp] theorem hear_host (r : Response) : (hear s r).host = s.host := rfl
@[simp] theorem hear_turns (r : Response) : (hear s r).turns = s.turns := rfl
@[simp] theorem hear_heard (r : Response) : (hear s r).heard = r :: s.heard := rfl
@[simp] theorem hear_draws (r : Response) : (hear s r).draws = s.draws := rfl

/-! ### popTurn -/

@[simp] theorem popTurn_cfg : (popTurn s).cfg = s.cfg := rfl
@[simp] theorem popTurn_busy : (popTurn s).busy = s.busy := rfl
@[simp] theorem popTurn_done : (popTurn s).done = s.done := rfl
@[simp] theorem popTurn_err : (popTurn s).err = s.err := rfl
@[simp] theorem popTurn_plen : (popTurn s).plen = s.plen := rfl
@[simp] theorem popTurn_cap : (popTurn s).cap = s.cap := rfl
@[simp] theorem popTurn_ckStart : (popTurn s).ckStart = s.ckStart := rfl
@[simp] theorem popTurn_ckEnd : (popTurn s).ckEnd = s.ckEnd := rfl
@[simp] theorem popTurn_resultLen : (popTurn s).resultLen = s.resultLen := rfl
@[simp] theorem popTurn_resultCksum : (popTurn s).resultCksum = s.resultCksum := rfl
@[simp] theorem popTurn_latch : (popTurn s).latch = s.latch := rfl
@[simp] theorem popTurn_pay : (popTurn s).pay = s.pay := rfl
@[simp] theorem popTurn_frm : (popTurn s).frm = s.frm := rfl
@[simp] theorem popTurn_host : (popTurn s).host = s.host := rfl
@[simp] theorem popTurn_turns : (popTurn s).turns = s.turns.tail := rfl
@[simp] theorem popTurn_heard : (popTurn s).heard = s.heard := rfl
@[simp] theorem popTurn_draws : (popTurn s).draws = s.draws := rfl

/-! ### flagsAtIssue -/

@[simp] theorem flagsAtIssue_cfg : (flagsAtIssue s).cfg = s.cfg := rfl
@[simp] theorem flagsAtIssue_busy : (flagsAtIssue s).busy = true := rfl
@[simp] theorem flagsAtIssue_done : (flagsAtIssue s).done = false := rfl
@[simp] theorem flagsAtIssue_err : (flagsAtIssue s).err = .ok := rfl
@[simp] theorem flagsAtIssue_plen : (flagsAtIssue s).plen = s.plen := rfl
@[simp] theorem flagsAtIssue_cap : (flagsAtIssue s).cap = s.cap := rfl
@[simp] theorem flagsAtIssue_ckStart : (flagsAtIssue s).ckStart = s.ckStart := rfl
@[simp] theorem flagsAtIssue_ckEnd : (flagsAtIssue s).ckEnd = s.ckEnd := rfl
@[simp] theorem flagsAtIssue_resultLen : (flagsAtIssue s).resultLen = s.resultLen := rfl
@[simp] theorem flagsAtIssue_resultCksum : (flagsAtIssue s).resultCksum = s.resultCksum := rfl
@[simp] theorem flagsAtIssue_latch : (flagsAtIssue s).latch = s.latch := rfl
@[simp] theorem flagsAtIssue_pay : (flagsAtIssue s).pay = s.pay := rfl
@[simp] theorem flagsAtIssue_frm : (flagsAtIssue s).frm = s.frm := rfl
@[simp] theorem flagsAtIssue_host : (flagsAtIssue s).host = s.host := rfl
@[simp] theorem flagsAtIssue_turns : (flagsAtIssue s).turns = s.turns := rfl
@[simp] theorem flagsAtIssue_heard : (flagsAtIssue s).heard = s.heard := rfl
@[simp] theorem flagsAtIssue_draws : (flagsAtIssue s).draws = s.draws := rfl

/-! ### flagsAtCompletion -/

@[simp] theorem flagsAtCompletion_cfg (code : ErrCode) : (flagsAtCompletion s code).cfg = s.cfg := rfl
@[simp] theorem flagsAtCompletion_busy (code : ErrCode) : (flagsAtCompletion s code).busy = false := rfl
@[simp] theorem flagsAtCompletion_done (code : ErrCode) : (flagsAtCompletion s code).done = true := rfl
@[simp] theorem flagsAtCompletion_err (code : ErrCode) : (flagsAtCompletion s code).err = code := rfl
@[simp] theorem flagsAtCompletion_plen (code : ErrCode) : (flagsAtCompletion s code).plen = s.plen := rfl
@[simp] theorem flagsAtCompletion_cap (code : ErrCode) : (flagsAtCompletion s code).cap = s.cap := rfl
@[simp] theorem flagsAtCompletion_ckStart (code : ErrCode) : (flagsAtCompletion s code).ckStart = s.ckStart := rfl
@[simp] theorem flagsAtCompletion_ckEnd (code : ErrCode) : (flagsAtCompletion s code).ckEnd = s.ckEnd := rfl
@[simp] theorem flagsAtCompletion_resultLen (code : ErrCode) : (flagsAtCompletion s code).resultLen = s.resultLen := rfl
@[simp] theorem flagsAtCompletion_resultCksum (code : ErrCode) : (flagsAtCompletion s code).resultCksum = s.resultCksum := rfl
@[simp] theorem flagsAtCompletion_latch (code : ErrCode) : (flagsAtCompletion s code).latch = s.latch := rfl
@[simp] theorem flagsAtCompletion_pay (code : ErrCode) : (flagsAtCompletion s code).pay = s.pay := rfl
@[simp] theorem flagsAtCompletion_frm (code : ErrCode) : (flagsAtCompletion s code).frm = s.frm := rfl
@[simp] theorem flagsAtCompletion_host (code : ErrCode) : (flagsAtCompletion s code).host = s.host := rfl
@[simp] theorem flagsAtCompletion_turns (code : ErrCode) : (flagsAtCompletion s code).turns = s.turns := rfl
@[simp] theorem flagsAtCompletion_heard (code : ErrCode) : (flagsAtCompletion s code).heard = s.heard := rfl
@[simp] theorem flagsAtCompletion_draws (code : ErrCode) : (flagsAtCompletion s code).draws = s.draws := rfl

/-! ### setResults -/

@[simp] theorem setResults_cfg (len : Word) (ck : Byte) : (setResults s len ck).cfg = s.cfg := rfl
@[simp] theorem setResults_busy (len : Word) (ck : Byte) : (setResults s len ck).busy = s.busy := rfl
@[simp] theorem setResults_done (len : Word) (ck : Byte) : (setResults s len ck).done = s.done := rfl
@[simp] theorem setResults_err (len : Word) (ck : Byte) : (setResults s len ck).err = s.err := rfl
@[simp] theorem setResults_plen (len : Word) (ck : Byte) : (setResults s len ck).plen = s.plen := rfl
@[simp] theorem setResults_cap (len : Word) (ck : Byte) : (setResults s len ck).cap = s.cap := rfl
@[simp] theorem setResults_ckStart (len : Word) (ck : Byte) : (setResults s len ck).ckStart = s.ckStart := rfl
@[simp] theorem setResults_ckEnd (len : Word) (ck : Byte) : (setResults s len ck).ckEnd = s.ckEnd := rfl
@[simp] theorem setResults_resultLen (len : Word) (ck : Byte) : (setResults s len ck).resultLen = len := rfl
@[simp] theorem setResults_resultCksum (len : Word) (ck : Byte) : (setResults s len ck).resultCksum = ck := rfl
@[simp] theorem setResults_latch (len : Word) (ck : Byte) : (setResults s len ck).latch = s.latch := rfl
@[simp] theorem setResults_pay (len : Word) (ck : Byte) : (setResults s len ck).pay = s.pay := rfl
@[simp] theorem setResults_frm (len : Word) (ck : Byte) : (setResults s len ck).frm = s.frm := rfl
@[simp] theorem setResults_host (len : Word) (ck : Byte) : (setResults s len ck).host = s.host := rfl
@[simp] theorem setResults_turns (len : Word) (ck : Byte) : (setResults s len ck).turns = s.turns := rfl
@[simp] theorem setResults_heard (len : Word) (ck : Byte) : (setResults s len ck).heard = s.heard := rfl
@[simp] theorem setResults_draws (len : Word) (ck : Byte) : (setResults s len ck).draws = s.draws := rfl

/-! ### issue -/

@[simp] theorem issue_cfg (v : Word) : (issue s v).cfg = s.cfg := rfl
@[simp] theorem issue_busy (v : Word) : (issue s v).busy = true := rfl
@[simp] theorem issue_done (v : Word) : (issue s v).done = false := rfl
@[simp] theorem issue_err (v : Word) : (issue s v).err = .ok := rfl
@[simp] theorem issue_plen (v : Word) : (issue s v).plen = s.plen := rfl
@[simp] theorem issue_cap (v : Word) : (issue s v).cap = s.cap := rfl
@[simp] theorem issue_ckStart (v : Word) : (issue s v).ckStart = s.ckStart := rfl
@[simp] theorem issue_ckEnd (v : Word) : (issue s v).ckEnd = s.ckEnd := rfl
@[simp] theorem issue_resultLen (v : Word) : (issue s v).resultLen = s.resultLen := rfl
@[simp] theorem issue_resultCksum (v : Word) : (issue s v).resultCksum = s.resultCksum := rfl
@[simp] theorem issue_latch (v : Word) : (issue s v).latch = { op := v, plen := s.plen, cap := s.cap, cks := s.ckStart, cke := s.ckEnd } := rfl
@[simp] theorem issue_pay (v : Word) : (issue s v).pay = s.pay := rfl
@[simp] theorem issue_frm (v : Word) : (issue s v).frm = s.frm := rfl
@[simp] theorem issue_host (v : Word) : (issue s v).host = s.host := rfl
@[simp] theorem issue_turns (v : Word) : (issue s v).turns = s.turns := rfl
@[simp] theorem issue_heard (v : Word) : (issue s v).heard = s.heard := rfl
@[simp] theorem issue_draws (v : Word) : (issue s v).draws = s.draws := rfl

/-! ### resetBlock -/

@[simp] theorem resetBlock_cfg : (resetBlock s).cfg = s.cfg := rfl
@[simp] theorem resetBlock_busy : (resetBlock s).busy = false := rfl
@[simp] theorem resetBlock_done : (resetBlock s).done = false := rfl
@[simp] theorem resetBlock_err : (resetBlock s).err = .ok := rfl
@[simp] theorem resetBlock_plen : (resetBlock s).plen = 0 := rfl
@[simp] theorem resetBlock_cap : (resetBlock s).cap = 0 := rfl
@[simp] theorem resetBlock_ckStart : (resetBlock s).ckStart = 0 := rfl
@[simp] theorem resetBlock_ckEnd : (resetBlock s).ckEnd = 0 := rfl
@[simp] theorem resetBlock_resultLen : (resetBlock s).resultLen = 0 := rfl
@[simp] theorem resetBlock_resultCksum : (resetBlock s).resultCksum = 0 := rfl
@[simp] theorem resetBlock_latch : (resetBlock s).latch = Latch.reset := rfl
@[simp] theorem resetBlock_pay : (resetBlock s).pay = [] := rfl
@[simp] theorem resetBlock_frm : (resetBlock s).frm = [] := rfl
@[simp] theorem resetBlock_host : (resetBlock s).host = s.host := rfl
@[simp] theorem resetBlock_turns : (resetBlock s).turns = s.turns := rfl
@[simp] theorem resetBlock_heard : (resetBlock s).heard = s.heard := rfl
@[simp] theorem resetBlock_draws : (resetBlock s).draws = s.draws := rfl

/-! ### complete -/

@[simp] theorem complete_cfg (code : ErrCode) : (complete s code).cfg = s.cfg := by unfold complete; split <;> simp_all
@[simp] theorem complete_busy (code : ErrCode) : (complete s code).busy = false := rfl
@[simp] theorem complete_done (code : ErrCode) : (complete s code).done = true := rfl
@[simp] theorem complete_err (code : ErrCode) : (complete s code).err = code := rfl
@[simp] theorem complete_plen (code : ErrCode) : (complete s code).plen = s.plen := by unfold complete; split <;> simp_all
@[simp] theorem complete_cap (code : ErrCode) : (complete s code).cap = s.cap := by unfold complete; split <;> simp_all
@[simp] theorem complete_ckStart (code : ErrCode) : (complete s code).ckStart = s.ckStart := by unfold complete; split <;> simp_all
@[simp] theorem complete_ckEnd (code : ErrCode) : (complete s code).ckEnd = s.ckEnd := by unfold complete; split <;> simp_all
@[simp] theorem complete_resultLen (code : ErrCode) : (complete s code).resultLen = if code = .ok then s.resultLen else 0 := by unfold complete; split <;> simp_all
@[simp] theorem complete_resultCksum (code : ErrCode) : (complete s code).resultCksum = if code = .ok then s.resultCksum else 0 := by unfold complete; split <;> simp_all
@[simp] theorem complete_latch (code : ErrCode) : (complete s code).latch = s.latch := by unfold complete; split <;> simp_all
@[simp] theorem complete_pay (code : ErrCode) : (complete s code).pay = s.pay := by unfold complete; split <;> simp_all
@[simp] theorem complete_frm (code : ErrCode) : (complete s code).frm = s.frm := by unfold complete; split <;> simp_all
@[simp] theorem complete_host (code : ErrCode) : (complete s code).host = s.host := by unfold complete; split <;> simp_all
@[simp] theorem complete_turns (code : ErrCode) : (complete s code).turns = s.turns := by unfold complete; split <;> simp_all
@[simp] theorem complete_heard (code : ErrCode) : (complete s code).heard = s.heard := by unfold complete; split <;> simp_all
@[simp] theorem complete_draws (code : ErrCode) : (complete s code).draws = s.draws := by unfold complete; split <;> simp_all

/-! ### ramWrite -/

@[simp] theorem ramWrite_cfg (m : Ram) (i : Nat) (b : Byte) : (ramWrite s m i b).cfg = s.cfg := by cases m <;> rfl
@[simp] theorem ramWrite_busy (m : Ram) (i : Nat) (b : Byte) : (ramWrite s m i b).busy = s.busy := by cases m <;> rfl
@[simp] theorem ramWrite_done (m : Ram) (i : Nat) (b : Byte) : (ramWrite s m i b).done = s.done := by cases m <;> rfl
@[simp] theorem ramWrite_err (m : Ram) (i : Nat) (b : Byte) : (ramWrite s m i b).err = s.err := by cases m <;> rfl
@[simp] theorem ramWrite_plen (m : Ram) (i : Nat) (b : Byte) : (ramWrite s m i b).plen = s.plen := by cases m <;> rfl
@[simp] theorem ramWrite_cap (m : Ram) (i : Nat) (b : Byte) : (ramWrite s m i b).cap = s.cap := by cases m <;> rfl
@[simp] theorem ramWrite_ckStart (m : Ram) (i : Nat) (b : Byte) : (ramWrite s m i b).ckStart = s.ckStart := by cases m <;> rfl
@[simp] theorem ramWrite_ckEnd (m : Ram) (i : Nat) (b : Byte) : (ramWrite s m i b).ckEnd = s.ckEnd := by cases m <;> rfl
@[simp] theorem ramWrite_resultLen (m : Ram) (i : Nat) (b : Byte) : (ramWrite s m i b).resultLen = s.resultLen := by cases m <;> rfl
@[simp] theorem ramWrite_resultCksum (m : Ram) (i : Nat) (b : Byte) : (ramWrite s m i b).resultCksum = s.resultCksum := by cases m <;> rfl
@[simp] theorem ramWrite_latch (m : Ram) (i : Nat) (b : Byte) : (ramWrite s m i b).latch = s.latch := by cases m <;> rfl
@[simp] theorem ramWrite_host (m : Ram) (i : Nat) (b : Byte) : (ramWrite s m i b).host = s.host := by cases m <;> rfl
@[simp] theorem ramWrite_turns (m : Ram) (i : Nat) (b : Byte) : (ramWrite s m i b).turns = s.turns := by cases m <;> rfl
@[simp] theorem ramWrite_heard (m : Ram) (i : Nat) (b : Byte) : (ramWrite s m i b).heard = s.heard := by cases m <;> rfl
@[simp] theorem ramWrite_draws (m : Ram) (i : Nat) (b : Byte) : (ramWrite s m i b).draws = s.draws := by cases m <;> rfl
@[simp] theorem ramWrite_pay_pay (i : Nat) (b : Byte) : (ramWrite s .pay i b).pay = Memory.write s.pay i b := rfl
@[simp] theorem ramWrite_pay_frm (i : Nat) (b : Byte) : (ramWrite s .pay i b).frm = s.frm := rfl
@[simp] theorem ramWrite_frm_pay (i : Nat) (b : Byte) : (ramWrite s .frm i b).pay = s.pay := rfl
@[simp] theorem ramWrite_frm_frm (i : Nat) (b : Byte) : (ramWrite s .frm i b).frm = Memory.write s.frm i b := rfl

end Sys2Proof.Machine
end

