-- ==== Sys2Proof/Laws/Ops.lean ====
section
/-!
SUPPORT. What the shared operations do: the checksum function, the length calculator, the register operations.
-/

namespace Sys2Proof.Machine

/-! ### The checksum function -/

@[simp] theorem byteSum_nil : byteSum [] = 0 := rfl

@[simp] theorem byteSum_cons (b : Byte) (bs : List Byte) : byteSum (b :: bs) = b.toNat + byteSum bs := rfl

@[simp] theorem byteSum_append (xs ys : List Byte) : byteSum (xs ++ ys) = byteSum xs + byteSum ys := by
  induction xs with
  | nil => simp
  | cons b bs ih => simp [ih, Nat.add_assoc]

theorem sum8_lt (bs : List Byte) : sum8 bs < 256 := Nat.mod_lt _ (by decide)

/-- The sum of a range's byte values is the sum of the bytes it reads as (00_scope.md section 5, Sums). -/
theorem sum_val_of_readRange {m : Memory} {i n : Nat} {bs : List Byte} (h : Memory.readRange m i n = .ok bs) :
    ∑ k ∈ Finset.Ico i (i + n), Memory.val m k = byteSum bs := by
  obtain ⟨hl, hr⟩ := Memory.readRange_eq_ok.1 h
  clear h
  induction bs generalizing i n with
  | nil => subst hl; simp
  | cons b bs ih =>
    rw [List.length_cons] at hl
    have h0 : Memory.val m i = b.toNat := by
      have := hr 0 (by omega)
      rw [Nat.add_zero, List.getElem?_cons_zero] at this
      rw [Memory.val, this, Option.getD_some]
    rw [Finset.sum_eq_sum_Ico_succ_bot (by omega), h0, byteSum_cons, show i + n = i + 1 + bs.length by omega]
    congr 1
    refine ih rfl fun k hk => ?_
    rw [show i + 1 + k = i + (k + 1) by omega, hr (k + 1) (by omega), List.getElem?_cons_succ]

/-- The mask of 40_checksum.md R69 changes nothing, since the difference is a byte value. -/
theorem checksum_toNat (bs : List Byte) : (checksum bs).toNat = 255 - sum8 bs := by
  have hm : (255 - sum8 bs) &&& 255 = 255 - sum8 bs := by
    rw [show (255 : Nat) = 2 ^ 8 - 1 by rfl, Nat.and_two_pow_sub_one_eq_mod]
    exact Nat.mod_eq_of_lt (by omega)
  rw [checksum, BitVec.toNat_ofNat, hm]
  omega

/-! ### The length calculator -/

theorem lengthVerdict_eq_ok {c : Config} {l : Latch} :
    lengthVerdict c l = .ok ↔ 0 ≤ payloadLength l ∧ 18 + payloadLength l ≤ effectiveCapacity c l := by
  unfold lengthVerdict frameLengthOf
  split
  · simp; omega
  · split
    · simp; omega
    · simp; omega

theorem lengthVerdict_of_neg {c : Config} {l : Latch} (h : payloadLength l < 0) :
    lengthVerdict c l = .invalidPayloadLength := if_pos h

theorem lengthVerdict_of_large {c : Config} {l : Latch} (h0 : 0 ≤ payloadLength l)
    (h : effectiveCapacity c l < 18 + payloadLength l) : lengthVerdict c l = .frameTooLarge := by
  rw [lengthVerdict, if_neg (by omega), frameLengthOf, if_pos (by omega)]

@[simp] theorem lengthCalculator_verdict (c : Config) (l : Latch) :
    (lengthCalculator c l).verdict = lengthVerdict c l := rfl

@[simp] theorem lengthCalculator_p (c : Config) (l : Latch) : (lengthCalculator c l).p = payloadLength l := rfl

@[simp] theorem lengthCalculator_frameLength (c : Config) (l : Latch) :
    (lengthCalculator c l).frameLength = 18 + payloadLength l := rfl

@[simp] theorem lengthCalculator_hi (c : Config) (l : Latch) :
    (lengthCalculator c l).hi = lenHi (lengthField (18 + payloadLength l)) := rfl

@[simp] theorem lengthCalculator_lo (c : Config) (l : Latch) :
    (lengthCalculator c l).lo = lenLo (lengthField (18 + payloadLength l)) := rfl

theorem effectiveCapacity_le (c : Config) (l : Latch) : effectiveCapacity c l ≤ c.frameRamSize := Nat.min_le_right _ _

theorem frameRamSize_le (c : Config) : c.frameRamSize ≤ 65536 := c.legal.2

/-- The two length bytes are the high and the low byte of the field. -/
theorem lenHi_lenLo (h : Half) : 256 * (lenHi h).toNat + (lenLo h).toNat = h.toNat := by
  have := h.isLt
  simp only [lenHi, lenLo, BitVec.extractLsb'_toNat, Nat.shiftRight_eq_div_pow]
  omega

theorem lengthField_toNat {p : Int} (h0 : 0 ≤ p) (h1 : 18 + p ≤ 65536) : (lengthField (18 + p)).toNat = 14 + p.toNat := by
  rw [lengthField, BitVec.toNat_ofInt]
  omega

/-! ### The ROM and the frame body -/

theorem romByte_of_mem (c : Config) {k : Nat} (h3 : 3 ≤ k) (h16 : k ≤ 16) : romByte c k = some c.rom[k - 3] := by
  rw [romByte, if_neg (by omega), if_pos h3]
  exact Vector.getElem?_eq_getElem (by omega)

@[simp] theorem frameBody_length (c : Config) (lc : LengthOut) (payload : List Byte) :
    (frameBody c lc payload).length = 17 + payload.length := by
  simp only [frameBody, List.length_cons, List.length_append, Vector.length_toList]; omega

/-! ### Issue, completion, reset -/

theorem complete_ok (s : State) : complete s .ok = flagsAtCompletion s .ok := rfl

theorem complete_error (s : State) {code : ErrCode} (h : code ≠ .ok) :
    complete s code = flagsAtCompletion (setResults s 0 0) code := by rw [complete, if_neg h]

theorem completedWith_complete (s : State) (code : ErrCode) : CompletedWith (complete s code) code :=
  ⟨rfl, rfl, rfl⟩

theorem sameInputs_complete (s : State) (code : ErrCode) : SameInputs s (complete s code) := by
  constructor <;> simp

/-- A register write is an issue, no change, or the one register's new value. -/
theorem regWrite_cases (s : State) (r : Reg) (v : Word) :
    (r = .cmd ∧ s.busy = false ∧ regWrite s r v = issue s v) ∨
    (r = .cmd ∧ s.busy = true ∧ regWrite s r v = s) ∨
    (r = .plen ∧ regWrite s r v = { s with plen := v }) ∨
    (r = .cap ∧ regWrite s r v = { s with cap := v }) ∨
    (r = .ckStart ∧ regWrite s r v = { s with ckStart := v }) ∨
    (r = .ckEnd ∧ regWrite s r v = { s with ckEnd := v }) ∨
    ((r = .status ∨ r = .resultLen ∨ r = .resultCksum) ∧ regWrite s r v = s) := by
  cases r <;> simp [regWrite]
  cases h : s.busy <;> simp

end Sys2Proof.Machine
end

