-- ==== Sys2Proof/Laws/Commands.lean ====
section
/-!
SUPPORT. What the commands do, said once: ENCODE's frame, the outcomes of ENCODE and CHECKSUM, and the engine step.
-/

namespace Sys2Proof.Machine

/-! ### The frame ENCODE writes -/

theorem writeAll_snoc (m : Memory) (i : Nat) (bs : List Byte) (b : Byte) :
    Memory.write (Memory.writeAll m i bs) (i + bs.length) b = Memory.writeAll m i (bs ++ [b]) := by
  induction bs generalizing m i with
  | nil => rfl
  | cons x bs ih =>
    rw [List.cons_append, Memory.writeAll, Memory.writeAll, ← ih, List.length_cons,
      show i + (bs.length + 1) = i + 1 + bs.length by omega]

/-- The covered bytes read back from the written body: the constants and the payload (41_frame_encoder.md R91). -/
theorem readRange_body (c : Config) (lc : LengthOut) (frm : Memory) (payload : List Byte) :
    Memory.readRange (Memory.writeAll frm 0 (frameBody c lc payload)) 3 (14 + payload.length) =
      .ok (c.rom.toList ++ payload) := by
  refine Memory.readRange_eq_ok.2 ⟨by simp, fun k hk => ?_⟩
  rw [Memory.read_writeAll, if_pos (by simp; omega), show 3 + k - 0 = k + 1 + 1 + 1 by omega]
  simp [frameBody]

/-- The checksum of a frame with this payload. -/
def frameChecksum (c : Config) (payload : List Byte) : Byte := checksum (c.rom.toList ++ payload)

/-- The whole frame, its checksum byte last (30_encoding.md R53). -/
def wholeFrame (c : Config) (lc : LengthOut) (payload : List Byte) : List Byte :=
  frameBody c lc payload ++ [frameChecksum c payload]

@[simp] theorem wholeFrame_length (c : Config) (lc : LengthOut) (payload : List Byte) :
    (wholeFrame c lc payload).length = 18 + payload.length := by
  rw [wholeFrame, List.length_append, frameBody_length, List.length_singleton]; omega

/-- With a readable payload, the frame is written whole. -/
theorem encodeFrame_of_payload (c : Config) (lc : LengthOut) (pay frm : Memory) {payload : List Byte}
    (h : Memory.readRange pay 0 lc.p.toNat = .ok payload) :
    encodeFrame c lc pay frm = .ok (Memory.writeAll frm 0 (wholeFrame c lc payload), frameChecksum c payload) := by
  have hl := (Memory.readRange_eq_ok.1 h).1
  rw [encodeFrame, h, ← hl]
  simp only [readRange_body]
  rw [wholeFrame, ← writeAll_snoc, frameBody_length, Nat.zero_add]
  rfl

/-- Without one, the read that stops the model is a read of PAY. -/
theorem encodeFrame_of_unwritten (c : Config) (lc : LengthOut) (pay frm : Memory) {j : Nat}
    (h : Memory.readRange pay 0 lc.p.toNat = .error j) :
    encodeFrame c lc pay frm = .error (.unwrittenRead .pay j) := by rw [encodeFrame, h]

/-! ### ENCODE -/

/-- What a valid ENCODE with this payload leaves. -/
def encoded (s : State) (payload : List Byte) : State :=
  complete (setResults
    { s with frm := Memory.writeAll s.frm 0 (wholeFrame s.cfg (lengthCalculator s.cfg s.latch) payload) }
    (BitVec.ofInt 32 (18 + payloadLength s.latch)) (frameChecksum s.cfg payload)) .ok

theorem execEncode_of_invalid (s : State) (h : lengthVerdict s.cfg s.latch ≠ .ok) :
    execEncode s = .next (complete s (lengthVerdict s.cfg s.latch)) := by
  rw [execEncode]; exact if_neg h

theorem execEncode_of_payload (s : State) {payload : List Byte} (hv : lengthVerdict s.cfg s.latch = .ok)
    (h : Memory.readRange s.pay 0 (payloadCount s) = .ok payload) : execEncode s = .next (encoded s payload) := by
  unfold execEncode
  simp only [lengthCalculator_verdict, hv, if_true]
  rw [encodeFrame_of_payload _ _ _ _ h]
  rfl

theorem execEncode_of_unwritten (s : State) {j : Nat} (hv : lengthVerdict s.cfg s.latch = .ok)
    (h : Memory.readRange s.pay 0 (payloadCount s) = .error j) : execEncode s = .fault (.unwrittenRead .pay j) := by
  unfold execEncode
  simp only [lengthCalculator_verdict, hv, if_true]
  rw [encodeFrame_of_unwritten _ _ _ _ h]

/-- Everything ENCODE can do: an error completion, a frame, or the stop at an unwritten payload byte. -/
theorem execEncode_cases (s : State) :
    (lengthVerdict s.cfg s.latch ≠ .ok ∧ execEncode s = .next (complete s (lengthVerdict s.cfg s.latch))) ∨
    (lengthVerdict s.cfg s.latch = .ok ∧ ∃ payload, Memory.readRange s.pay 0 (payloadCount s) = .ok payload ∧
      execEncode s = .next (encoded s payload)) ∨
    (lengthVerdict s.cfg s.latch = .ok ∧ ∃ j, Memory.readRange s.pay 0 (payloadCount s) = .error j ∧
      execEncode s = .fault (.unwrittenRead .pay j)) := by
  by_cases hv : lengthVerdict s.cfg s.latch = .ok
  · cases h : Memory.readRange s.pay 0 (payloadCount s) with
    | ok payload => exact .inr (.inl ⟨hv, payload, rfl, execEncode_of_payload s hv h⟩)
    | error j => exact .inr (.inr ⟨hv, j, rfl, execEncode_of_unwritten s hv h⟩)
  · exact .inl ⟨hv, execEncode_of_invalid s hv⟩

/-! ### CHECKSUM -/

/-- The bytes CHECKSUM covers. -/
abbrev coveredBytes (s : State) : Except Nat (List Byte) :=
  Memory.readRange s.frm (rangeStart s.latch) (rangeEnd s.latch - rangeStart s.latch)

/-- Everything CHECKSUM can do: an INVALID_RANGE completion, a checksum, or the stop at an unwritten frame byte. -/
theorem execChecksum_cases (s : State) :
    (¬validRange s.cfg s.latch ∧ execChecksum s = .next (complete s .invalidRange)) ∨
    (validRange s.cfg s.latch ∧ ∃ bytes, coveredBytes s = .ok bytes ∧
      execChecksum s = .next (complete (setResults s 0 (checksum bytes)) .ok)) ∨
    (validRange s.cfg s.latch ∧ ∃ i, coveredBytes s = .error i ∧ execChecksum s = .fault (.unwrittenRead .frm i)) := by
  unfold execChecksum
  by_cases hv : validRange s.cfg s.latch
  · rw [if_pos hv]
    cases h : coveredBytes s with
    | ok bytes => exact .inr (.inl ⟨hv, bytes, rfl, by rw [show Memory.readRange _ _ _ = _ from h]⟩)
    | error i => exact .inr (.inr ⟨hv, i, rfl, by rw [show Memory.readRange _ _ _ = _ from h]⟩)
  · rw [if_neg hv]; exact .inl ⟨hv, rfl⟩

/-! ### The engine step -/

theorem decode_cases (w : Word) :
    (w = 0x00000001#32 ∧ decode w = .ok .encode) ∨ (w = 0x00000002#32 ∧ decode w = .ok .checksum) ∨
    (w ≠ 0x00000001#32 ∧ w ≠ 0x00000002#32 ∧ decode w = .error (.illegalCommand w)) := by
  unfold decode
  split
  · exact .inl ⟨‹_›, rfl⟩
  · split
    · exact .inr (.inl ⟨‹_›, rfl⟩)
    · exact .inr (.inr ⟨‹_›, ‹_›, rfl⟩)

/-- The four things an engine step decides: the frame RAM, RESULT_LEN, RESULT_CKSUM and the code. -/
abbrev Effect := Memory × Word × Byte × ErrCode

/-- What an engine step decides, from the parameters, the latched operands and the RAMs alone (10_state.md R30). -/
def engineEffect (c : Config) (l : Latch) (pay frm : Memory) : Except Fault Effect :=
  match decode l.op with
  | .ok .encode =>
    if lengthVerdict c l = .ok then
      match encodeFrame c (lengthCalculator c l) pay frm with
      | .error f => .error f
      | .ok (frm', chk) => .ok (frm', BitVec.ofInt 32 (18 + payloadLength l), chk, .ok)
    else .ok (frm, 0, 0, lengthVerdict c l)
  | .ok .checksum =>
    if validRange c l then
      match Memory.readRange frm (rangeStart l) (rangeEnd l - rangeStart l) with
      | .error i => .error (.unwrittenRead .frm i)
      | .ok bytes => .ok (frm, 0, checksum bytes, .ok)
    else .ok (frm, 0, 0, .invalidRange)
  | .error _ => .ok (frm, 0, 0, .illegalCommand)

/-- The effect is written with the completion flags; nothing else changes. -/
def applyEffect (s : State) (e : Effect) : State :=
  { s with frm := e.1, resultLen := e.2.1, resultCksum := e.2.2.1, err := e.2.2.2, busy := false, done := true }

theorem complete_eq_applyEffect (s : State) {code : ErrCode} (h : code ≠ .ok) :
    complete s code = applyEffect s (s.frm, 0, 0, code) := by rw [complete_error s h]; rfl

/-- An engine step is its effect on the state it starts from: all an engine step reads and writes, said once. -/
theorem engineStep_eq (s : State) :
    engineStep s =
      match engineEffect s.cfg s.latch s.pay s.frm with
      | .error f => .fault f
      | .ok e => .next (applyEffect s e) := by
  unfold engineStep engineEffect
  rcases decode_cases s.latch.op with ⟨-, hd⟩ | ⟨-, hd⟩ | ⟨-, -, hd⟩ <;> simp only [hd]
  · by_cases hv : lengthVerdict s.cfg s.latch = .ok
    · rw [if_pos hv]
      cases h : Memory.readRange s.pay 0 (payloadCount s) with
      | ok payload =>
        rw [encodeFrame_of_payload _ _ _ _ h]
        exact execEncode_of_payload s hv h
      | error j =>
        rw [encodeFrame_of_unwritten _ _ _ _ h]
        exact execEncode_of_unwritten s hv h
    · rw [if_neg hv]
      exact (execEncode_of_invalid s hv).trans (by rw [complete_eq_applyEffect s hv])
  · simp only [exec, execChecksum]
    by_cases hv : validRange s.cfg s.latch
    · rw [if_pos hv, if_pos hv]
      cases Memory.readRange s.frm (rangeStart s.latch) (rangeEnd s.latch - rangeStart s.latch) <;> rfl
    · rw [if_neg hv, if_neg hv, complete_eq_applyEffect s (by decide)]
  · rw [execIllegal, complete_eq_applyEffect s (by decide)]

/-- The engine step is ENCODE, CHECKSUM or the illegal-command completion, as L.OP says (10_state.md R14). -/
theorem engineStep_cases (s : State) :
    (s.latch.op = 0x00000001#32 ∧ engineStep s = execEncode s) ∨
    (s.latch.op = 0x00000002#32 ∧ engineStep s = execChecksum s) ∨
    (s.latch.op ≠ 0x00000001#32 ∧ s.latch.op ≠ 0x00000002#32 ∧ engineStep s = .next (complete s .illegalCommand)) := by
  unfold engineStep
  rcases decode_cases s.latch.op with ⟨h, hd⟩ | ⟨h, hd⟩ | ⟨h1, h2, hd⟩
  · exact .inl ⟨h, by rw [hd]; rfl⟩
  · exact .inr (.inl ⟨h, by rw [hd]; rfl⟩)
  · exact .inr (.inr ⟨h1, h2, by rw [hd]; rfl⟩)

/-- Every next state of an engine step: an error completion, an ENCODE's frame or a CHECKSUM's result. -/
theorem engineStep_next {s t : State} (h : engineStep s = .next t) :
    (∃ code, code ≠ .ok ∧ t = complete s code) ∨
    (s.latch.op = 0x00000001#32 ∧ lengthVerdict s.cfg s.latch = .ok ∧
      ∃ payload, Memory.readRange s.pay 0 (payloadCount s) = .ok payload ∧ t = encoded s payload) ∨
    (s.latch.op = 0x00000002#32 ∧ validRange s.cfg s.latch ∧
      ∃ bytes, coveredBytes s = .ok bytes ∧ t = complete (setResults s 0 (checksum bytes)) .ok) := by
  rcases engineStep_cases s with ⟨ho, he⟩ | ⟨ho, he⟩ | ⟨-, -, he⟩
  · rw [he] at h
    rcases execEncode_cases s with ⟨hv, hx⟩ | ⟨hv, payload, hp, hx⟩ | ⟨-, j, -, hx⟩ <;> rw [hx] at h
    · cases h; exact .inl ⟨_, hv, rfl⟩
    · cases h; exact .inr (.inl ⟨ho, hv, payload, hp, rfl⟩)
    · cases h
  · rw [he] at h
    rcases execChecksum_cases s with ⟨-, hx⟩ | ⟨hv, bytes, hb, hx⟩ | ⟨-, j, -, hx⟩ <;> rw [hx] at h
    · cases h; exact .inl ⟨_, by decide, rfl⟩
    · cases h; exact .inr (.inr ⟨ho, hv, bytes, hb, rfl⟩)
    · cases h
  · rw [he] at h; cases h; exact .inl ⟨_, by decide, rfl⟩

end Sys2Proof.Machine
end

