-- ==== Sys2Proof/Laws/PerInstr.lean ====
section
/-!
SUPPORT. Facts made per command: one lemma per constructor of Instr.
-/

namespace Sys2Proof.Laws.RoundTrip

/-- A well-formed command is what its command word decodes to (30_encoding.md R57). -/
def Statement (i : Instr) : Prop := i.wellFormed = true → decode (Sys2Proof.encode i) = .ok i

theorem encode : Statement .encode := fun _ => rfl

theorem checksum : Statement .checksum := fun _ => rfl

end Sys2Proof.Laws.RoundTrip
end

