-- ==== Sys2Proof/Laws/Step.lean ====
section
/-!
SUPPORT. What one step can do: the address map, one bus transaction, one host move, and the step as a whole.
-/

namespace Sys2Proof.Machine

/-! ### The address map -/

theorem target_reg (c : Config) (r : Reg) : target c 4 r.offset = some (.reg r) := by cases r <;> rfl

theorem index?_eq_some {c : Config} {m : Ram} {o i : Nat} :
    m.index? c o = some i ↔ m.base ≤ o ∧ o < m.base + m.size c ∧ i = o - m.base := by
  unfold Ram.index?
  split
  · simp; omega
  · simp; omega

theorem index?_eq_none {c : Config} {m : Ram} {o : Nat} :
    m.index? c o = none ↔ ¬(m.base ≤ o ∧ o < m.base + m.size c) := by
  unfold Ram.index?
  split <;> simp_all

theorem size_le (c : Config) (m : Ram) : m.size c ≤ 65536 := by
  have := c.legal
  cases m <;> simp only [Ram.size, Config.payloadRamSize] <;> omega

theorem offset_toNat {c : Config} {m : Ram} {i : Nat} (h : i < m.size c) : (m.offset i).toNat = m.base + i := by
  have := size_le c m
  rw [Ram.offset, BitVec.toNat_ofNat, Nat.mod_eq_of_lt]
  cases m <;> simp only [Ram.base] <;> omega

theorem target_ram {c : Config} {m : Ram} {i : Nat} (h : i < m.size c) :
    target c 1 (m.offset i) = some (.ram m i) := by
  have ho := offset_toNat h
  have hs := size_le c m
  rw [target, if_neg (by decide), if_pos rfl, ho]
  cases m with
  | pay =>
    have hp : Ram.pay.index? c (Ram.pay.base + i) = some i := index?_eq_some.2 ⟨by omega, by omega, by omega⟩
    rw [hp]
  | frm =>
    have hp : Ram.pay.index? c (Ram.frm.base + i) = none := by
      have := size_le c .pay
      rw [Ram.index?, if_neg]
      simp only [Ram.base]; omega
    have hf : Ram.frm.index? c (Ram.frm.base + i) = some i := index?_eq_some.2 ⟨by omega, by omega, by omega⟩
    rw [hp, hf]; rfl

/-- Every offset the map answers as a RAM byte lies inside that RAM. -/
theorem lt_size_of_target {c : Config} {n : Nat} {off : Word} {m : Ram} {i : Nat}
    (h : target c n off = some (.ram m i)) : i < m.size c := by
  unfold target at h
  split at h
  · cases hr : regAt off.toNat <;> simp [hr] at h
  · split at h
    · split at h
      · rename_i j hj
        obtain ⟨rfl, rfl⟩ : Ram.pay = m ∧ j = i := by simpa using h
        have := index?_eq_some.1 hj; omega
      · cases hf : Ram.frm.index? c off.toNat with
        | none => simp [hf] at h
        | some j =>
          obtain ⟨rfl, rfl⟩ : Ram.frm = m ∧ j = i := by simpa [hf] using h
          have := index?_eq_some.1 hf; omega
    · exact nomatch h

/-! ### One bus transaction -/

@[simp] theorem ramOf_hear (s : State) (r : Response) (m : Ram) : ramOf (hear s r) m = ramOf s m := by cases m <;> rfl

/-- A read of FRM while busy answers a free byte. -/
theorem hostRamRead_free {s : State} (i : Nat) (hb : s.busy = true) :
    hostRamRead s .frm i = .next (hear { s with draws := s.draws + 1 } (.byte (Config.freeByte s.draws))) := by
  rw [hostRamRead, hb]; rfl

/-- Every other read answers what the RAM holds. -/
theorem hostRamRead_held {s : State} {m : Ram} (i : Nat) (h : m = .pay ∨ s.busy = false) :
    hostRamRead s m i =
      match Memory.read (ramOf s m) i with
      | none => .fault (.unwrittenRead m i)
      | some b => .next (hear s (.byte b)) := by
  have hn : ¬(s.busy && m == .frm) = true := by
    rcases h with rfl | h
    · simp
    · simp [h]
  exact if_neg hn

/-- Every next state of a transaction: the answer heard, and at most one draw, one register write, or one RAM byte written
while idle. -/
theorem hostAccess_next {s t : State} {a : Access} (h : hostAccess s a = .next t) :
    (∃ r, t = hear s r) ∨
    (∃ r, t = hear { s with draws := s.draws + 1 } r) ∨
    (∃ r v, t = hear (regWrite s r v) .written) ∨
    (∃ m i b, s.busy = false ∧ i < m.size s.cfg ∧ t = hear (ramWrite s m i b) .written) := by
  cases a with
  | read n off =>
    simp only [hostAccess] at h
    split at h
    · cases h
    · cases h; exact .inl ⟨_, rfl⟩
    · unfold hostRamRead at h
      split at h
      · cases h; exact .inr (.inl ⟨_, rfl⟩)
      · split at h
        · cases h
        · cases h; exact .inl ⟨_, rfl⟩
  | write n off v =>
    simp only [hostAccess] at h
    split at h
    · cases h
    · cases h; exact .inr (.inr (.inl ⟨_, _, rfl⟩))
    · rename_i m i hm
      unfold hostRamWrite at h
      split at h
      · cases h
      · cases h
        exact .inr (.inr (.inr ⟨_, _, _, by simp_all, lt_size_of_target hm, rfl⟩))

/-- Every fault of a transaction: a bus error, an unwritten byte, or a RAM write while busy. -/
theorem hostAccess_outcome (s : State) (a : Access) :
    (∃ t, hostAccess s a = .next t) ∨ (∃ f, hostAccess s a = .fault f) := by
  cases a with
  | read n off =>
    simp only [hostAccess]
    split
    · exact .inr ⟨_, rfl⟩
    · exact .inl ⟨_, rfl⟩
    · unfold hostRamRead
      split
      · exact .inl ⟨_, rfl⟩
      · split
        · exact .inr ⟨_, rfl⟩
        · exact .inl ⟨_, rfl⟩
  | write n off v =>
    simp only [hostAccess]
    split
    · exact .inr ⟨_, rfl⟩
    · exact .inl ⟨_, rfl⟩
    · unfold hostRamWrite
      split
      · exact .inr ⟨_, rfl⟩
      · exact .inl ⟨_, rfl⟩

/-! ### WAIT -/

/-- Bit 0 of STATUS is BUSY (10_state.md R19). -/
@[simp] theorem statusWord_busy (s : State) : (statusWord s).getLsbD 0 = s.busy := by
  cases h : s.busy <;> cases hd : s.done <;> cases he : s.err <;> simp [statusWord, h, hd, he] <;> decide

theorem hostPoll_eq (s : State) :
    hostPoll s = if s.busy then { hear s (.word (statusWord s)) with host := .wait :: s.host }
      else hear s (.word (statusWord s)) := by
  simp only [hostPoll, regRead, statusWord_busy]; rfl

/-! ### One step -/

/-- A step is an engine step, a host move while busy, or a host move while idle. -/
theorem step_cases (s : State) :
    (s.busy = true ∧ engineTurn s = true ∧ step s = engineStep (popTurn s)) ∨
    (s.busy = true ∧ engineTurn s = false ∧ step s = hostMove (popTurn s)) ∨
    (s.busy = false ∧ step s = hostMove s) := by
  unfold step
  cases hb : s.busy with
  | false =>
    have he : engineTurn s = false := by simp [engineTurn, hb]
    exact .inr (.inr ⟨rfl, by simp [he]⟩)
  | true =>
    cases he : engineTurn s with
    | true => exact .inl ⟨rfl, rfl, by simp⟩
    | false => exact .inr (.inl ⟨rfl, rfl, by simp⟩)

/-- Every next state of a host move. -/
theorem hostMove_next {s t : State} (h : hostMove s = .next t) :
    (s.host = [] ∧ t = s) ∨
    (∃ a rest, s.host = .access a :: rest ∧ hostAccess { s with host := rest } a = .next t) ∨
    (∃ rest, s.host = .wait :: rest ∧ t = hostPoll { s with host := rest }) ∨
    (∃ rest, s.host = .reset :: rest ∧ t = resetBlock { s with host := rest }) := by
  unfold hostMove at h
  split at h
  · cases h; exact .inl ⟨‹_›, rfl⟩
  · exact .inr (.inl ⟨_, _, ‹_›, h⟩)
  · cases h; exact .inr (.inr (.inl ⟨_, ‹_›, rfl⟩))
  · cases h; exact .inr (.inr (.inr ⟨_, ‹_›, rfl⟩))

/-! ### Runs -/

theorem run_zero (s : State) : run 0 s = .next s := rfl

/-- A run of k + 1 steps is a step and a run of k. -/
theorem run_succ {s t : State} (k : Nat) (h : step s = .next t) : run (k + 1) s = run k t := by rw [run, h]

end Sys2Proof.Machine
end

