-- ==== Sys2Proof/Tests/Slice0.lean ====
section
/-!
SUPPORT. Tests whose expected results come from spec/95_test_vectors.md and the encodings of spec/30_encoding.md, and for
every statement with hypotheses a witness: a concrete state and operands that meet them together, at the boundaries of the
ranges its clauses split.
-/

namespace Sys2Proof.Tests

open Sys2Proof.Machine

/-! ### Helpers -/

/-- A field of the next state, if there is one. -/
def after {α : Type} (f : State → α) : Host.Outcome State Fault Refusal → Option α
  | .next t => some (f t)
  | .fault _ => none
  | .refused _ => none

theorem exists_of_after {α : Type} {f : State → α} {o : Host.Outcome State Fault Refusal} {a : α}
    (h : after f o = some a) : ∃ t, o = .next t ∧ f t = a := by
  cases o with
  | next t => exact ⟨t, rfl, by simpa [after] using h⟩
  | fault _ => exact nomatch h
  | refused _ => exact nomatch h

/-- The reason of a fault, if the outcome is one. -/
def reason : Host.Outcome State Fault Refusal → Option Fault
  | .next _ => none
  | .fault f => some f
  | .refused _ => none

theorem eq_fault_of_reason {o : Host.Outcome State Fault Refusal} {f : Fault} (h : reason o = some f) : o = .fault f := by
  cases o with
  | next _ => exact nomatch h
  | fault _ => simp only [reason, Option.some.injEq] at h; rw [h]
  | refused _ => exact nomatch h

/-- A command in flight with these latched operands, nothing in the RAMs. -/
def inFlight (op plen cap cks cke : Word) : State :=
  { State.reset with busy := true, latch := { op := op, plen := plen, cap := cap, cks := cks, cke := cke } }

/-- The payload "512" (95_test_vectors.md W1). -/
def pay512 : Memory := [(0, 0x35), (1, 0x31), (2, 0x32)]

/-- ENCODE of "512" in flight, with a declared capacity. -/
def encode512 (cap : Word) : State := { inFlight 1 3 cap 0 0 with pay := pay512 }

/-- ENCODE of the empty payload in flight. -/
def encodeEmpty (cap : Word) : State := inFlight 1 0 cap 0 0

/-- The frame of "512" (95_test_vectors.md V-EN-2). -/
def frame512 : List Byte :=
  [0x7E, 0x00, 0x11, 0x10, 0x01, 0x00, 0x00, 0x00, 0x00, 0x00, 0x00, 0xFF, 0xFF, 0xFF, 0xFE, 0x00, 0x00, 0x35, 0x31,
    0x32, 0x5B]

/-- CHECKSUM over a range of a frame RAM that holds the frame of "512". -/
def checksum512 (s e : Word) : State :=
  { inFlight 2 0 0 s e with frm := (List.range 21).zip frame512 }

/-! ### Decoding: the words of 30_encoding.md R57, bit by bit -/

theorem test_decode_encode : decode 0b00000000000000000000000000000001#32 = .ok .encode := by decide

theorem test_decode_checksum : decode 0b00000000000000000000000000000010#32 = .ok .checksum := by decide

theorem test_decode_illegal : decode 0x00000101#32 = .error (.illegalCommand 0x00000101#32) := by decide

theorem test_decodeTableWord : decodeTableWord 32 1 = some .encode ∧ decodeTableWord 32 2 = some .checksum ∧
    decodeTableWord 32 0x101 = none ∧ decodeTableWord 64 1 = none := by decide

/-! ### Well-formedness: each check refuses an ill-formed term -/

theorem test_access_data_too_wide : Access.wellFormed (.write 1 0x00010000 0x100) = false := by decide

theorem test_script_immediate_too_large : ScriptLine.wellFormed Config.default (.wr .cap (2 ^ 32)) = false := by decide

theorem test_script_immediate_too_small :
    ScriptLine.wellFormed Config.default (.wr .plen (-(2 ^ 31) - 1)) = false := by decide

theorem test_script_index_past_pay : ScriptLine.wellFormed Config.default (.wrb .pay 238 0) = false := by decide

theorem test_script_index_past_frm : ScriptLine.wellFormed Config.default (.rdb .frm 256) = false := by decide

theorem test_script_nothing_to_load : ScriptLine.wellFormed Config.default (.loadPay 0 []) = false := by decide

theorem test_script_load_past_frm : ScriptLine.wellFormed Config.default (.loadFrm 255 [1, 2]) = false := by decide

theorem test_script_read_past_frm : ScriptLine.wellFormed Config.default (.readFrm 250 7) = false := by decide

/-! ### Commands -/

/-- 95_test_vectors.md V-EN-2. -/
theorem test_encode_512 :
    after (fun t => (t.frm, t.resultLen, t.resultCksum, statusWord t)) (step (encode512 64)) =
      some ((List.range 21).zip frame512, 21, 0x5B, 0x00000002) := by decide

/-- 95_test_vectors.md V-EN-14: both causes; the sign check wins. -/
theorem test_encode_negative_and_too_large :
    after (fun t => (t.frm, t.resultLen, t.resultCksum, statusWord t)) (step (inFlight 1 0xFFFFFFFF 0 0 0)) =
      some ([], 0, 0, 0x00000022) := by decide

/-- 95_test_vectors.md V-CK-4: covered bytes and checksum of a frame. -/
theorem test_checksum_frame :
    after (fun t => (t.resultLen, t.resultCksum, statusWord t)) (step (checksum512 3 21)) =
      some (0, 0x00, 0x00000002) := by decide

/-- 95_test_vectors.md V-CK-8: the bounds are unsigned. -/
theorem test_checksum_unsigned_bounds :
    after (fun t => (t.resultLen, t.resultCksum, statusWord t)) (step (checksum512 0x80000000 0x80000000)) =
      some (0, 0x00, 0x00000042) := by decide

/-- 95_test_vectors.md V-IL-3. -/
theorem test_illegal_word :
    after (fun t => (t.resultLen, t.resultCksum, statusWord t))
      (step { inFlight 0x101 0 0 0 0 with resultLen := 21, resultCksum := 0x5B }) = some (0, 0, 0x00000012) := by decide

/-- 95_test_vectors.md V-CF-1, V-CF-3, V-CF-5, V-CF-6, V-CF-7. -/
theorem test_checksum_function :
    checksum [] = 0xFF ∧ checksum [0xFF] = 0x00 ∧ checksum [0x80, 0x80] = 0xFF ∧ checksum [0xFF, 0xFF] = 0x01 ∧
      checksum Config.default.rom.toList = 0xF3 := by decide

/-- 41_frame_encoder.md R86: K = 0x40C mod 256 = 0x0C. -/
theorem test_default_rom_sum : byteSum Config.default.rom.toList = 0x40C ∧ sum8 Config.default.rom.toList = 0x0C := by decide

/-! ### The bus -/

/-- 95_test_vectors.md V-BUS-1 to V-BUS-4, V-BUS-6, V-BUS-7. -/
theorem test_bus_errors :
    reason (hostAccess State.reset (.read 4 0x00000002)) = some (.busError 0x00000002) ∧
    reason (hostAccess State.reset (.read 1 0x00000004)) = some (.busError 0x00000004) ∧
    reason (hostAccess State.reset (.write 4 0x00010000 0x12345678)) = some (.busError 0x00010000) ∧
    reason (hostAccess State.reset (.read 1 0x000100EE)) = some (.busError 0x000100EE) ∧
    reason (hostAccess State.reset (.read 1 0x00020100)) = some (.busError 0x00020100) ∧
    reason (hostAccess State.reset (.read 4 0x00000020)) = some (.busError 0x00000020) := by decide

/-- 95_test_vectors.md V-HZ-2. -/
theorem test_ram_write_while_busy :
    reason (hostAccess (encode512 64) (.write 1 0x00010000 0x00)) = some (.ramWriteWhileBusy .pay 0) := by decide

/-- 95_test_vectors.md V-RS-1, after a command in flight. -/
theorem test_reset_abandons :
    after (fun t => (statusWord t, t.resultLen, t.pay, t.host))
      (step { encode512 64 with host := [.reset, .wait], turns := [.host], resultLen := 21 }) =
      some (0x00000000, 0, [], [.wait]) := by decide

/-- 95_test_vectors.md P1 line 6: the effect of `ENCODE` on the bus. -/
theorem test_issue :
    after (fun t => (t.busy, t.latch)) (hostAccess { State.reset with plen := 3, cap := 64 } (.write 4 0x00 1)) =
      some (true, { op := 1, plen := 3, cap := 64, cks := 0, cke := 0 }) := by decide

/-- 95_test_vectors.md P1 lines 1, 3, 6 and 10, P3 line 1: the encodings of script lines. -/
theorem test_script_encodings :
    expandScript [.wr .cap 64, .loadPay 0 [0x35, 0x31], .encode, .wait, .readFrm 19 2, .wr .plen (-1)] =
      [.access (.write 4 0x0000000C 0x00000040), .access (.write 1 0x00010000 0x35), .access (.write 1 0x00010001 0x31),
        .access (.write 4 0x00000000 0x00000001), .wait, .access (.read 1 0x00020013), .access (.read 1 0x00020014),
        .access (.write 4 0x00000008 0xFFFFFFFF)] := by decide

/-! ### Placing a command after reset -/

theorem test_withFetchWord_encode :
    after (fun t => statusWord t) (step (State.reset.withFetchWord 32 1)) = some 0x00000032 := by decide

theorem test_withFetchWord_checksum :
    after (fun t => (statusWord t, t.resultCksum)) (step (State.reset.withFetchWord 32 2)) =
      some (0x00000002, 0xFF) := by decide

/-! ### Witnesses: encodings, registers, issue -/

theorem witness_DecoderAndEncoderAgree : Instr.wellFormed .encode = true ∧ decode 2#32 = .ok .checksum := by decide

theorem witness_IllegalWordCompletesIllegalCommand :
    (inFlight 3 0 0 0 0).latch.op ≠ 0x00000001#32 ∧ (inFlight 3 0 0 0 0).latch.op ≠ 0x00000002#32 := by decide

theorem witness_ReadOnlyRegistersIgnoreWrites :
    ∃ r : Reg, r = .status ∨ r = .resultLen ∨ r = .resultCksum := ⟨.status, .inl rfl⟩

theorem witness_OperandRegistersHoldTheLastWrite :
    ∃ r : Reg, r = .plen ∨ r = .cap ∨ r = .ckStart ∨ r = .ckEnd := ⟨.ckEnd, .inr (.inr (.inr rfl))⟩

theorem witness_StatusReadsOneOfSevenValues : Inv State.reset where
  payWf := by decide
  frmWf := by decide
  payBelow := by decide
  frmBelow := by decide
  status := ⟨(fun h => nomatch h), fun _ => rfl⟩
  results := fun h => nomatch h
  resultLen := .inl rfl

theorem witness_CommandWriteWhileBusyIsIgnored : (encode512 64).busy = true := by decide

/-- A CMD write waiting, the host's turn. -/
def secondCommand : State :=
  { encode512 64 with host := [.access (.write 4 0x00 2)], turns := [.host] }

theorem witness_CommandWriteIssuesWhileIdle :
    State.reset.busy = false ∧ secondCommand.busy = true ∧ ∃ t, step secondCommand = .next t ∧ t.busy = true :=
  ⟨rfl, rfl, exists_of_after (f := State.busy) (by decide)⟩

theorem witness_HostMovesLeaveTheCommandInFlight :
    secondCommand.busy = true ∧ engineTurn secondCommand = false ∧ secondCommand.host.head? ≠ some .reset ∧
      ∃ t, step secondCommand = .next t ∧ t.busy = true :=
  ⟨rfl, by decide, by decide, exists_of_after (f := State.busy) (by decide)⟩

theorem witness_OperandWriteWhileBusySparesTheCommand :
    (encode512 64).busy = true ∧ (∃ r : Reg, r = .plen ∨ r = .cap ∨ r = .ckStart ∨ r = .ckEnd) ∧
      ∃ u, engineStep (encode512 64) = .next u ∧ u.err = .ok :=
  ⟨rfl, ⟨.plen, .inl rfl⟩, exists_of_after (f := State.err) (by decide)⟩

/-! ### Witnesses: the bus and the RAMs -/

theorem witness_OnlyMappedAccessesAreAnswered :
    (∀ x ∈ ([(4, 0x02), (4, 0x20), (1, 0x1C), (1, 0x0000FFFF), (1, 0x000100EE), (1, 0x0001FFFF), (1, 0x00020100),
      (2, 0x00020000), (1, 0xFFFFFFFF)] : List (Nat × Word)), ¬OnTheMap Config.default x.1 x.2) ∧
    (∀ x ∈ ([(4, 0x00), (4, 0x1C), (1, 0x00010000), (1, 0x000100ED), (1, 0x00020000), (1, 0x000200FF)] :
      List (Nat × Word)), OnTheMap Config.default x.1 x.2) := by decide

/-- An idle block whose PAY holds "512". -/
def idle512 : State := { State.reset with pay := pay512 }

theorem witness_RamWindowsReadAndWriteBytes :
    (encode512 64).busy = true ∧ Memory.read (ramOf (encode512 64) .pay) 2 = some 0x32 ∧
    idle512.busy = false ∧ 237 < Ram.size idle512.cfg .pay ∧ 255 < Ram.size idle512.cfg .frm ∧
      0 < Ram.size idle512.cfg .pay ∧ Memory.read (ramOf idle512 .pay) 0 = some 0x35 := by decide

theorem witness_UnwrittenByteReadFaults :
    (3 < Ram.size (encode512 64).cfg .pay ∧ ¬Memory.Written (ramOf (encode512 64) .pay) 3) ∧
    (255 < Ram.size State.reset.cfg .frm ∧ ¬Memory.Written (ramOf State.reset .frm) 255 ∧ State.reset.busy = false) := by
  decide

theorem witness_RamWriteWhileBusyFaults :
    (encode512 64).busy = true ∧ 237 < Ram.size (encode512 64).cfg .pay ∧ 255 < Ram.size (encode512 64).cfg .frm := by decide

theorem witness_FrameReadWhileBusyAnswersAFreeByte :
    (encode512 64).busy = true ∧ 255 < (encode512 64).cfg.frameRamSize ∧ 2 < (encode512 64).cfg.payloadRamSize ∧
      Memory.read (encode512 64).pay 2 = some 0x32 := by decide

theorem witness_ReadsHaveNoSideEffect :
    (∃ t, hostAccess idle512 (.read 1 0x00010000) = .next t ∧ t.heard = [.byte 0x35]) ∧
      ∀ i, target idle512.cfg 1 0x00010000 = some (.ram .frm i) → idle512.busy = false :=
  ⟨exists_of_after (f := State.heard) (by decide), fun _ _ => rfl⟩

/-! ### Witnesses: completion -/

theorem witness_CompletionRecordsOnlyTheCode : ErrCode.ok = .ok ∧ ErrCode.invalidRange ≠ .ok := by decide

theorem witness_EngineStepEndsInACompletion : EngineReady (encode512 64) ∧ EngineReady (checksum512 3 21) :=
  ⟨⟨fun _ _ => by decide, fun h => absurd h (by decide)⟩, ⟨fun h => absurd h (by decide), fun _ _ => by decide⟩⟩

theorem witness_ErrorCompletionsArePrecise :
    ∃ t, engineStep (encode512 20) = .next t ∧ t.err = .frameTooLarge :=
  exists_of_after (f := State.err) (by decide)

theorem witness_ErrorPriorityWithinACommand :
    (∃ t, engineStep (inFlight 3 0xFFFFFFFF 0 1 0) = .next t ∧ t.err = .illegalCommand) ∧
    (payloadLength (inFlight 1 0xFFFFFFFF 0 0 0).latch < 0 ∧
      ∃ t, engineStep (inFlight 1 0xFFFFFFFF 0 0 0) = .next t ∧ t.err = .invalidPayloadLength) ∧
    (0 ≤ payloadLength (encodeEmpty 17).latch ∧
      (effectiveCapacity (encodeEmpty 17).cfg (encodeEmpty 17).latch : Int) < 18 + payloadLength (encodeEmpty 17).latch ∧
      ∃ t, engineStep (encodeEmpty 17) = .next t ∧ t.err = .frameTooLarge) ∧
    (∃ t, engineStep (checksum512 22 21) = .next t ∧ t.err = .invalidRange) :=
  ⟨exists_of_after (f := State.err) (by decide),
    ⟨by decide, exists_of_after (f := State.err) (by decide)⟩,
    ⟨by decide, by decide, exists_of_after (f := State.err) (by decide)⟩,
    exists_of_after (f := State.err) (by decide)⟩

theorem witness_ResultLengthIsBytesWritten :
    (∃ t, engineStep (encode512 21) = .next t ∧ t.err = .ok) ∧
    (∃ t, engineStep (encode512 20) = .next t ∧ t.err = .frameTooLarge) ∧
    (∃ t, engineStep (checksum512 3 21) = .next t ∧ t.err = .ok) :=
  ⟨exists_of_after (f := State.err) (by decide), exists_of_after (f := State.err) (by decide),
    exists_of_after (f := State.err) (by decide)⟩

/-- Idle, a CMD write waiting. -/
def aboutToIssue : State := { idle512 with host := [.access (.write 4 0x00 1)] }

/-- Idle, a STATUS read waiting. -/
def aboutToRead : State := { idle512 with host := [.access (.read 4 0x04)] }

theorem witness_CompletionStaysUntilIssueOrReset :
    (aboutToIssue.busy = false ∧ aboutToIssue.host.head? ≠ some .reset ∧ ∃ t, step aboutToIssue = .next t ∧ t.busy = true) ∧
    (aboutToRead.busy = false ∧ aboutToRead.host.head? ≠ some .reset ∧ ∃ t, step aboutToRead = .next t ∧ t.busy = false) :=
  ⟨⟨rfl, by decide, exists_of_after (f := State.busy) (by decide)⟩,
    ⟨rfl, by decide, exists_of_after (f := State.busy) (by decide)⟩⟩

/-! ### Witnesses: ENCODE -/

theorem witness_EncodeWritesTheFrame :
    (EncodeValid (encode512 21) ∧ PayloadWritten (encode512 21)) ∧
      (EncodeValid (encodeEmpty 18) ∧ PayloadWritten (encodeEmpty 18)) := by decide

theorem witness_EncodeChecksLengthThenCapacity :
    payloadLength (inFlight 1 0x80000000 0 0 0).latch < 0 ∧
    (0 ≤ payloadLength (inFlight 1 0x7FFFFFFF 0xFFFFFFFF 0 0).latch ∧
      (effectiveCapacity Config.default (inFlight 1 0x7FFFFFFF 0xFFFFFFFF 0 0).latch : Int) <
        18 + payloadLength (inFlight 1 0x7FFFFFFF 0xFFFFFFFF 0 0).latch) ∧
    (0 ≤ payloadLength (encode512 21).latch ∧
      18 + payloadLength (encode512 21).latch ≤ effectiveCapacity Config.default (encode512 21).latch) ∧
    ∃ t, exec .encode (encode512 21) = .next t ∧ t.err = .ok :=
  ⟨by decide, by decide, by decide, exists_of_after (f := State.err) (by decide)⟩

theorem witness_EncodeIsAllOrNothing :
    (∃ t, exec .encode (encode512 21) = .next t ∧ t.err = .ok) ∧
      ∃ t, exec .encode (encode512 20) = .next t ∧ t.err = .frameTooLarge :=
  ⟨exists_of_after (f := State.err) (by decide), exists_of_after (f := State.err) (by decide)⟩

theorem witness_EncodeNeverWritesPastTheCapacity :
    (∃ t, exec .encode (encode512 21) = .next t ∧ t.err = .ok) ∧
      effectiveCapacity (encode512 21).cfg (encode512 21).latch ≤ 21 ∧
      0 ≤ payloadLength (encode512 20).latch ∧
      (effectiveCapacity (encode512 20).cfg (encode512 20).latch : Int) < 18 + payloadLength (encode512 20).latch :=
  ⟨exists_of_after (f := State.err) (by decide), by decide, by decide, by decide⟩

/-- ENCODE of four payload bytes, the last of them unwritten. -/
def encodeUnwritten : State := { inFlight 1 4 64 0 0 with pay := pay512 }

theorem witness_EncodeStopsOnlyAtAnUnwrittenPayloadByte :
    EncodeValid encodeUnwritten ∧ ¬PayloadWritten encodeUnwritten ∧
      exec .encode encodeUnwritten = .fault (.unwrittenRead .pay 3) :=
  ⟨by decide, by decide, eq_fault_of_reason (by decide)⟩

theorem witness_EncodeChecksumCoversConstantsAndPayload :
    (∃ t, exec .encode (encode512 64) = .next t ∧ t.err = .ok) ∧
    (∃ t, exec .encode (encodeEmpty 64) = .next t ∧ t.err = .ok) ∧
      (encodeEmpty 64).cfg.rom = Config.default.rom ∧ payloadLength (encodeEmpty 64).latch = 0 :=
  ⟨exists_of_after (f := State.err) (by decide), exists_of_after (f := State.err) (by decide), by decide, by decide⟩

/-- ENCODE of "512" in a block that holds another frame and other PAY bytes past the payload. -/
def encode512Elsewhere : State :=
  { encode512 64 with pay := pay512 ++ [(3, 0xAA)], frm := [(30, 0x55)], plen := 7 }

theorem witness_EncodeIsDeterministicInItsInputs :
    encode512Elsewhere.latch.plen = (encode512 64).latch.plen ∧
    effectiveCapacity encode512Elsewhere.cfg encode512Elsewhere.latch =
      effectiveCapacity (encode512 64).cfg (encode512 64).latch ∧
    encode512Elsewhere.cfg.rom = (encode512 64).cfg.rom ∧
    (∀ j, j < payloadCount (encode512 64) → Memory.read encode512Elsewhere.pay j = Memory.read (encode512 64).pay j) ∧
    ∃ t, exec .encode (encode512 64) = .next t ∧ t.err = .ok :=
  ⟨rfl, rfl, rfl, by decide, exists_of_after (f := State.err) (by decide)⟩

theorem witness_ShorterFrameLeavesStaleBytes :
    ∃ t₁, exec .encode (encode512 64) = .next t₁ ∧ t₁.err = .ok ∧
      (∃ t₂, exec .encode { encodeEmpty 64 with frm := t₁.frm } = .next t₂ ∧ t₂.err = .ok) ∧
      payloadCount (encodeEmpty 64) < payloadCount (encode512 64) ∧
      18 + payloadCount (encodeEmpty 64) ≤ 20 ∧ 20 ≤ 17 + payloadCount (encode512 64) := by
  obtain ⟨t, h, ht⟩ := exists_of_after (f := fun t => (t.err, t.frm)) (o := exec .encode (encode512 64))
    (a := (.ok, (List.range 21).zip frame512)) (by decide)
  simp only [Prod.mk.injEq] at ht
  refine ⟨t, h, ht.1, ?_, by decide, by decide, by decide⟩
  rw [ht.2]
  exact exists_of_after (f := State.err) (by decide)

theorem witness_LengthFieldNeverTruncates : EncodeValid (encodeEmpty 18) ∧ EncodeValid (encode512 21) := by decide

theorem witness_EveryFrameByteIsTheMultiplexersByte :
    (∃ t, exec .encode (encode512 64) = .next t ∧ t.err = .ok) ∧ 20 < 18 + payloadCount (encode512 64) :=
  ⟨exists_of_after (f := State.err) (by decide), by decide⟩

theorem witness_SinglePassRealisesEncode : EncodeValid (encode512 21) ∧ EncodeValid encodeUnwritten := by decide

/-! ### Witnesses: CHECKSUM -/

theorem witness_ChecksumCommandResult :
    (rangeStart (checksum512 3 21).latch ≤ rangeEnd (checksum512 3 21).latch ∧
      rangeEnd (checksum512 3 21).latch ≤ (checksum512 3 21).cfg.frameRamSize ∧ RangeWritten (checksum512 3 21)) ∧
    ¬(rangeStart (checksum512 0 257).latch ≤ rangeEnd (checksum512 0 257).latch ∧
      rangeEnd (checksum512 0 257).latch ≤ (checksum512 0 257).cfg.frameRamSize) ∧
    ¬(rangeStart (checksum512 22 21).latch ≤ rangeEnd (checksum512 22 21).latch ∧
      rangeEnd (checksum512 22 21).latch ≤ (checksum512 22 21).cfg.frameRamSize) := by decide

/-- 95_test_vectors.md V-CK-9. -/
theorem witness_ChecksumStopsOnlyAtAnUnwrittenFrameByte :
    validRange (checksum512 0 22).cfg (checksum512 0 22).latch ∧ ¬RangeWritten (checksum512 0 22) ∧
      exec .checksum (checksum512 0 22) = .fault (.unwrittenRead .frm 21) :=
  ⟨by decide, by decide, eq_fault_of_reason (by decide)⟩

/-- The same range of a frame RAM that differs outside it. -/
def checksum512Elsewhere : State := { checksum512 3 21 with frm := (0, 0x00) :: ((List.range 21).zip frame512).tail }

theorem witness_ChecksumIsDeterministicInItsRange :
    checksum512Elsewhere.cfg = (checksum512 3 21).cfg ∧ checksum512Elsewhere.latch.cks = (checksum512 3 21).latch.cks ∧
    checksum512Elsewhere.latch.cke = (checksum512 3 21).latch.cke ∧
    (∀ i, rangeStart (checksum512 3 21).latch ≤ i → i < rangeEnd (checksum512 3 21).latch →
      Memory.read checksum512Elsewhere.frm i = Memory.read (checksum512 3 21).frm i) ∧
    ∃ t, exec .checksum (checksum512 3 21) = .next t ∧ t.resultCksum = 0 :=
  ⟨rfl, rfl, rfl, by decide, exists_of_after (f := State.resultCksum) (by decide)⟩

theorem witness_FreshFrameChecksToZero :
    ∃ t u : State, exec .encode (encode512 64) = .next t ∧ t.err = .ok ∧ u.frm = t.frm ∧ u.cfg = t.cfg ∧
      rangeStart u.latch = 3 ∧ rangeEnd u.latch = 18 + payloadCount (encode512 64) := by
  obtain ⟨t, h, ht⟩ := exists_of_after (f := State.err) (o := exec .encode (encode512 64)) (a := .ok) (by decide)
  exact ⟨t, { t with latch := { op := 2, plen := 0, cap := 0, cks := 3, cke := 21 } }, h, ht, rfl, rfl, rfl, rfl⟩

theorem witness_EmptyRangeChecksToFF :
    (rangeStart (checksum512 256 256).latch = rangeEnd (checksum512 256 256).latch ∧
      rangeEnd (checksum512 256 256).latch ≤ (checksum512 256 256).cfg.frameRamSize) ∧
    (rangeStart (checksum512 0 0).latch = rangeEnd (checksum512 0 0).latch ∧
      rangeEnd (checksum512 0 0).latch ≤ (checksum512 0 0).cfg.frameRamSize) := by decide

theorem witness_StreamingAccumulatorRealisesChecksum : ([0x01, 0x02] : List Byte).Perm [0x02, 0x01] := List.Perm.swap _ _ _

/-! ### Witnesses: the engine, reset, the step -/

theorem witness_EngineStepFrame :
    (∃ t, engineStep (encode512 64) = .next t ∧ t.err = .ok) ∧ ∃ t, engineStep (checksum512 3 21) = .next t ∧ t.err = .ok :=
  ⟨exists_of_after (f := State.err) (by decide), exists_of_after (f := State.err) (by decide)⟩

theorem witness_EngineReadsOnlyTheLatchedOperands : ∃ t, engineStep (encode512 64) = .next t ∧ t.plen = 0 :=
  exists_of_after (f := State.plen) (by decide)

theorem witness_NoCommandReadsAnEarlierResult : ∃ t, engineStep (encode512 64) = .next t ∧ t.resultLen = 21 :=
  exists_of_after (f := State.resultLen) (by decide)

/-- Idle, a read of an unwritten byte waiting. -/
def aboutToFault : State := { idle512 with host := [.access (.read 1 0x00020000)] }

theorem witness_IdleStepIgnoresTheLatchedOperands :
    (aboutToRead.busy = false ∧ ∃ t, step aboutToRead = .next t ∧ t.heard = [.word 0]) ∧
    (aboutToFault.busy = false ∧ step aboutToFault = .fault (.unwrittenRead .frm 0)) :=
  ⟨⟨rfl, exists_of_after (f := State.heard) (by decide)⟩, rfl, eq_fault_of_reason (by decide)⟩

theorem witness_ResetValuesAndAbandonment :
    ({ encode512 64 with host := [.reset], turns := [.host] } : State).host = [.reset] ∧
      engineTurn { encode512 64 with host := [.reset], turns := [.host] } = false := by decide

theorem witness_StepRunsTheDecodedCommand :
    engineTurn (encode512 64) = true ∧ decode (encode512 64).latch.op = .ok .encode ∧
      engineTurn (inFlight 3 0 0 0 0) = true ∧ decode (inFlight 3 0 0 0 0).latch.op = .error (.illegalCommand 3) := by decide

theorem witness_PlacedWordIsTheNextCommand : decodeTableWord 32 2 = some .checksum := by decide

theorem witness_EngineHasNoStepWhileIdle : State.reset.busy = false ∧ State.reset.host = [] := by decide

theorem witness_BothOrdersOfASecondCommandAreAdmitted :
    secondCommand.busy = true ∧ secondCommand.host = .access (.write 4 0x00 2) :: [] ∧ secondCommand.turns = .host :: [] ∧
      ({ secondCommand with turns := [.engine] } : State).turns = .engine :: [] ∧
      ∃ t, step { secondCommand with turns := [.engine] } = .next t ∧ t.err = .ok :=
  ⟨rfl, rfl, rfl, rfl, exists_of_after (f := State.err) (by decide)⟩

theorem witness_WaitEndsUnderEverySchedule :
    ({ encode512 64 with host := [.wait], turns := [.host, .host, .engine] } : State).busy = true ∧
      ({ encode512 64 with host := [.wait], turns := [.host, .host, .engine] } : State).host = .wait :: [] ∧
      EngineReady { encode512 64 with host := [.wait], turns := [.host, .host, .engine] } :=
  ⟨rfl, rfl, fun _ _ => by decide, fun h => absurd h (by decide)⟩

/-- Each way a step stops. -/
theorem witness_StepStopsOnlyWhereTheSpecSays :
    step encodeUnwritten = .fault (.unwrittenRead .pay 3) ∧ step aboutToFault = .fault (.unwrittenRead .frm 0) ∧
    step { idle512 with host := [.access (.read 4 0x20)] } = .fault (.busError 0x20) ∧
    step { encode512 64 with host := [.access (.write 1 0x00010000 0)], turns := [.host] } =
      .fault (.ramWriteWhileBusy .pay 0) :=
  ⟨eq_fault_of_reason (by decide), eq_fault_of_reason (by decide), eq_fault_of_reason (by decide),
    eq_fault_of_reason (by decide)⟩

theorem witness_ParametersNeverChange : ∃ t, step (encode512 64) = .next t ∧ t.err = .ok :=
  exists_of_after (f := State.err) (by decide)

theorem witness_EveryStepKeepsTheInvariant : Inv State.reset ∧ ∃ t, step State.reset = .next t ∧ t.busy = false :=
  ⟨witness_StatusReadsOneOfSevenValues, exists_of_after (f := State.busy) (by decide)⟩

theorem witness_WellFormedScriptLinesStayOnTheMap :
    ScriptLine.wellFormed Config.default (.loadFrm 255 [0x7E]) = true ∧
      .access (.write 1 0x000200FF 0x7E) ∈ ScriptLine.expand (.loadFrm 255 [0x7E]) := by decide

end Sys2Proof.Tests
end

section
/-!
PROOF. No transition writes the parameters (00_scope.md R12, 10_state.md R26): each agent's move keeps `cfg`, hence so
does every step.
-/

namespace Sys2Proof.Machine

/-! ### The engine -/

/-- Applying an engine step's effect touches STATUS, the results and FRM only (10_state.md R30). -/
theorem sameInputs_applyEffect (s : State) (e : Effect) : SameInputs s (applyEffect s e) := by
  constructor <;> rfl

/-- The frame of an engine step: what no command writes. -/
theorem sameInputs_engineStep {s t : State} (h : engineStep s = .next t) : SameInputs s t := by
  rw [engineStep_eq] at h
  cases he : engineEffect s.cfg s.latch s.pay s.frm with
  | error f => rw [he] at h; cases h
  | ok e => rw [he] at h; cases h; exact sameInputs_applyEffect s e

/-! ### The host -/

@[simp] theorem regWrite_cfg (s : State) (r : Reg) (v : Word) : (regWrite s r v).cfg = s.cfg := by
  rcases regWrite_cases s r v with ⟨-, -, h⟩ | ⟨-, -, h⟩ | ⟨-, h⟩ | ⟨-, h⟩ | ⟨-, h⟩ | ⟨-, h⟩ | ⟨-, h⟩ <;>
    simp [h]

@[simp] theorem hostPoll_cfg (s : State) : (hostPoll s).cfg = s.cfg := by
  rw [hostPoll_eq]
  split <;> rfl

theorem hostAccess_cfg {s t : State} {a : Access} (h : hostAccess s a = .next t) : t.cfg = s.cfg := by
  rcases hostAccess_next h with ⟨r, rfl⟩ | ⟨r, rfl⟩ | ⟨r, v, rfl⟩ | ⟨m, i, b, -, -, rfl⟩
  · exact hear_cfg s r
  · exact hear_cfg _ r
  · rw [hear_cfg, regWrite_cfg]
  · rw [hear_cfg, ramWrite_cfg]

/-- A reset restores every register and empties the RAMs, but it too carries the parameters over (70 R121). -/
theorem hostMove_cfg {s t : State} (h : hostMove s = .next t) : t.cfg = s.cfg := by
  rcases hostMove_next h with ⟨-, rfl⟩ | ⟨a, rest, -, ha⟩ | ⟨rest, -, rfl⟩ | ⟨rest, -, rfl⟩
  · rfl
  · exact (hostAccess_cfg ha).trans rfl
  · exact hostPoll_cfg _
  · exact resetBlock_cfg _

/-- Settles O56: a step is one agent's move, and each agent's move keeps the parameters. -/
theorem parametersNeverChange : Obligations.ParametersNeverChange := by
  intro s t h
  rcases step_cases s with ⟨-, -, hs⟩ | ⟨-, -, hs⟩ | ⟨-, hs⟩ <;> rw [hs] at h
  · exact (sameInputs_engineStep h).cfg.trans (popTurn_cfg s)
  · exact (hostMove_cfg h).trans (popTurn_cfg s)
  · exact hostMove_cfg h

end Sys2Proof.Machine
end

section
/-!
PROOF. Every step keeps the block's invariant: a host move hears an answer, writes one register or one RAM byte, or resets;
an engine step completes on RAMs that are in order.
-/

namespace Sys2Proof.Machine

/-! ### Updates that leave the invariant's fields alone -/

/-- The invariant reads the parameters, the RAMs, STATUS and the results only: whatever agrees on these keeps it. -/
theorem Inv.of_agree {s t : State} (h : Inv s) (hc : t.cfg = s.cfg := by rfl) (hp : t.pay = s.pay := by rfl)
    (hf : t.frm = s.frm := by rfl) (hb : t.busy = s.busy := by rfl) (hd : t.done = s.done := by rfl)
    (he : t.err = s.err := by rfl) (hl : t.resultLen = s.resultLen := by rfl)
    (hk : t.resultCksum = s.resultCksum := by rfl) : Inv t where
  payWf := hp ▸ h.payWf
  frmWf := hf ▸ h.frmWf
  payBelow := by rw [hp, hc]; exact h.payBelow
  frmBelow := by rw [hf, hc]; exact h.frmBelow
  status := ⟨by rw [hb, hd]; exact h.status.notBoth, by rw [hd, he]; exact h.status.codeOnlyDone⟩
  results := by rw [ResultsLegal, hd, he, hl, hk]; exact h.results
  resultLen := by rw [ResultLenLegal, hl, hc]; exact h.resultLen

theorem Inv.hear {s : State} (h : Inv s) (r : Response) : Inv (hear s r) := h.of_agree

theorem Inv.popTurn {s : State} (h : Inv s) : Inv (popTurn s) := h.of_agree

theorem Inv.setHost {s : State} (h : Inv s) (es : List Event) : Inv { s with host := es } := h.of_agree

/-! ### The host's moves -/

/-- Issue keeps the results and sets BUSY with DONE 0 and no code (20_memory.md R44). -/
theorem Inv.issue {s : State} (h : Inv s) (v : Word) : Inv (issue s v) where
  payWf := h.payWf
  frmWf := h.frmWf
  payBelow := h.payBelow
  frmBelow := h.frmBelow
  status := ⟨fun _ => rfl, fun _ => rfl⟩
  results := fun hd => nomatch hd
  resultLen := h.resultLen

theorem Inv.regWrite {s : State} (h : Inv s) (r : Reg) (v : Word) : Inv (regWrite s r v) := by
  rcases regWrite_cases s r v with ⟨-, -, hw⟩ | ⟨-, -, hw⟩ | ⟨-, hw⟩ | ⟨-, hw⟩ | ⟨-, hw⟩ | ⟨-, hw⟩ | ⟨-, hw⟩ <;>
    rw [hw]
  · exact h.issue v
  · exact h
  all_goals exact h.of_agree

theorem Inv.ramWrite {s : State} (h : Inv s) {m : Ram} {i : Nat} (b : Byte) (hi : i < m.size s.cfg) :
    Inv (ramWrite s m i b) := by
  cases m with
  | pay =>
    exact { h with
      payWf := Memory.write_wf i b h.payWf
      payBelow := Memory.write_below b h.payBelow hi
      status := ⟨h.status.notBoth, h.status.codeOnlyDone⟩ }
  | frm =>
    exact { h with
      frmWf := Memory.write_wf i b h.frmWf
      frmBelow := Memory.write_below b h.frmBelow hi
      status := ⟨h.status.notBoth, h.status.codeOnlyDone⟩ }

theorem Inv.resetBlock (s : State) : Inv (resetBlock s) where
  payWf := List.Pairwise.nil
  frmWf := List.Pairwise.nil
  payBelow := fun _ hx => nomatch hx
  frmBelow := fun _ hx => nomatch hx
  status := ⟨fun _ => rfl, fun _ => rfl⟩
  results := fun hd => nomatch hd
  resultLen := .inl rfl

theorem Inv.hostPoll {s : State} (h : Inv s) : Inv (hostPoll s) := by
  rw [hostPoll_eq]
  split
  · exact (h.hear _).setHost _
  · exact h.hear _

theorem Inv.hostAccess {s t : State} {a : Access} (h : Inv s) (ha : hostAccess s a = .next t) : Inv t := by
  rcases hostAccess_next ha with ⟨r, rfl⟩ | ⟨r, rfl⟩ | ⟨r, v, rfl⟩ | ⟨m, i, b, -, hi, rfl⟩
  · exact h.hear r
  · exact h.of_agree
  · exact (h.regWrite r v).hear _
  · exact (h.ramWrite b hi).hear _

theorem Inv.hostMove {s t : State} (h : Inv s) (hm : hostMove s = .next t) : Inv t := by
  rcases hostMove_next hm with ⟨-, rfl⟩ | ⟨a, rest, -, ha⟩ | ⟨rest, -, rfl⟩ | ⟨rest, -, rfl⟩
  · exact h
  · exact (h.setHost rest).hostAccess ha
  · exact (h.setHost rest).hostPoll
  · exact Inv.resetBlock _

/-! ### The engine's step -/

/-- Both RAMs are in canonical form and inside their sizes: the invariant's part that a completion needs beforehand. -/
structure RamsLegal (s : State) : Prop where
  payWf : Memory.wf s.pay
  frmWf : Memory.wf s.frm
  payBelow : Memory.Below s.pay s.cfg.payloadRamSize
  frmBelow : Memory.Below s.frm s.cfg.frameRamSize

theorem Inv.ramsLegal {s : State} (h : Inv s) : RamsLegal s := ⟨h.payWf, h.frmWf, h.payBelow, h.frmBelow⟩

/-- A completion makes STATUS and the results legal whatever they were: with an error code it zeroes the results
(60_exceptions.md R108). -/
theorem inv_complete {s : State} {code : ErrCode} (hr : RamsLegal s) (hl : ResultLenLegal s) :
    Inv (complete s code) where
  payWf := by simpa using hr.payWf
  frmWf := by simpa using hr.frmWf
  payBelow := by simpa using hr.payBelow
  frmBelow := by simpa using hr.frmBelow
  status := ⟨fun hb => (nomatch hb), fun hd => (nomatch hd)⟩
  results := fun _ hc => by
    have hcode : code ≠ .ok := hc
    simp [hcode]
  resultLen := by
    by_cases hcode : code = .ok
    · simpa [ResultLenLegal, hcode] using hl
    · exact .inl (by simp [hcode])

/-- The frame's length fits a word: it is at most the RAM's size (41_frame_encoder.md R83, R84). -/
theorem frameLength_toNat {c : Config} {l : Latch} (hv : lengthVerdict c l = .ok) :
    (BitVec.ofInt 32 (18 + payloadLength l)).toNat = 18 + (payloadLength l).toNat ∧
      18 + (payloadLength l).toNat ≤ c.frameRamSize := by
  obtain ⟨h0, hcap⟩ := lengthVerdict_eq_ok.1 hv
  have hle := effectiveCapacity_le c l
  have hsize := frameRamSize_le c
  rw [BitVec.toNat_ofInt]
  omega

/-- A frame lies inside FRM, because it fits the effective capacity. -/
theorem Inv.encoded {s : State} (h : Inv s) (hv : lengthVerdict s.cfg s.latch = .ok) {payload : List Byte}
    (hp : Memory.readRange s.pay 0 (payloadCount s) = .ok payload) : Inv (encoded s payload) := by
  obtain ⟨hlen, hfits⟩ := frameLength_toNat hv
  have hpl : payload.length = payloadCount s := (Memory.readRange_eq_ok.1 hp).1
  refine inv_complete ⟨h.payWf, Memory.writeAll_wf _ _ h.frmWf, h.payBelow, Memory.writeAll_below h.frmBelow ?_⟩
    (.inr ?_)
  · rw [wholeFrame_length, hpl]
    show 0 + (18 + (payloadLength s.latch).toNat) ≤ s.cfg.frameRamSize
    omega
  · show 18 ≤ (BitVec.ofInt 32 (18 + payloadLength s.latch)).toNat ∧
      (BitVec.ofInt 32 (18 + payloadLength s.latch)).toNat ≤ s.cfg.frameRamSize
    omega

theorem Inv.engineStep {s t : State} (h : Inv s) (he : engineStep s = .next t) : Inv t := by
  rcases engineStep_next he with ⟨code, -, rfl⟩ | ⟨-, hv, payload, hp, rfl⟩ | ⟨-, -, bytes, -, rfl⟩
  · exact inv_complete h.ramsLegal h.resultLen
  · exact h.encoded hv hp
  · exact inv_complete ⟨h.payWf, h.frmWf, h.payBelow, h.frmBelow⟩ (.inl rfl)

/-- Settles O57: a step is one agent's move, and each agent's moves keep the invariant. -/
theorem everyStepKeepsTheInvariant : Obligations.EveryStepKeepsTheInvariant := by
  intro s t hi h
  rcases step_cases s with ⟨-, -, hs⟩ | ⟨-, -, hs⟩ | ⟨-, hs⟩ <;> rw [hs] at h
  · exact hi.popTurn.engineStep h
  · exact hi.popTurn.hostMove h
  · exact hi.hostMove h

end Sys2Proof.Machine
end

section
/-!
PROOF. The engine step: when a command stops the model (10_state.md R27, log 3), that an engine step that does not stop
completes (R14), and what it reads and leaves alone (R21, R24, R25, R30).
-/

namespace Sys2Proof.Machine

/-! ### Reading a range -/

/-- A range fails to read exactly if a byte of it holds no value. -/
theorem Memory.exists_readRange_error_iff {m : Memory} {i n : Nat} :
    (∃ j, Memory.readRange m i n = .error j) ↔ ¬∀ k, i ≤ k → k < i + n → Memory.Written m k := by
  constructor
  · rintro ⟨j, hj⟩ hw
    obtain ⟨bs, hbs⟩ := Memory.exists_readRange hw
    rw [hj] at hbs
    cases hbs
  · intro hw
    cases h : Memory.readRange m i n with
    | error j => exact ⟨j, rfl⟩
    | ok bs =>
      refine absurd (fun k h1 h2 => ?_) hw
      obtain ⟨hl, hr⟩ := Memory.readRange_eq_ok.1 h
      have hk := hr (k - i) (by omega)
      rw [show i + (k - i) = k by omega, List.getElem?_eq_getElem (by omega)] at hk
      rw [Memory.Written, hk, Option.isSome_some]

theorem payload_unread_iff (s : State) :
    (∃ j, Memory.readRange s.pay 0 (payloadCount s) = .error j) ↔ ¬PayloadWritten s := by
  rw [Memory.exists_readRange_error_iff]
  simp [PayloadWritten]

theorem covered_unread_iff {s : State} (hv : validRange s.cfg s.latch) :
    (∃ j, coveredBytes s = .error j) ↔ ¬RangeWritten s := by
  rw [coveredBytes, Memory.exists_readRange_error_iff, Nat.add_sub_cancel' hv.1]

/-! ### The stops of the two commands -/

/-- Settles O28: by the three things ENCODE can do, it stops where its read of the payload does. -/
theorem encodeStopsOnlyAtAnUnwrittenPayloadByte : Obligations.EncodeStopsOnlyAtAnUnwrittenPayloadByte := by
  intro s
  rw [EncodeValid, ← lengthVerdict_eq_ok, ← payload_unread_iff]
  simp only [exec]
  rcases execEncode_cases s with ⟨hv, he⟩ | ⟨-, payload, hp, he⟩ | ⟨hv, j, hj, he⟩
  · rw [he]
    exact ⟨⟨nofun, fun ⟨hok, _⟩ => absurd hok hv⟩, nofun, nofun⟩
  · rw [he, hp]
    exact ⟨⟨nofun, nofun⟩, nofun, nofun⟩
  · obtain ⟨-, hlt, hnone⟩ := Memory.readRange_eq_error hj
    rw [he]
    refine ⟨⟨fun _ => ⟨hv, j, hj⟩, fun _ => ⟨_, rfl⟩⟩, fun f hf => ⟨j, ?_, by omega, ?_⟩, nofun⟩
    · cases hf; rfl
    · simp [Memory.Written, hnone]

/-- Settles O37: by the three things CHECKSUM can do, it stops where its read of the range does. -/
theorem checksumStopsOnlyAtAnUnwrittenFrameByte : Obligations.ChecksumStopsOnlyAtAnUnwrittenFrameByte := by
  intro s
  simp only [exec]
  rcases execChecksum_cases s with ⟨hv, he⟩ | ⟨hv, bytes, hb, he⟩ | ⟨hv, i, hi, he⟩
  · rw [he]
    exact ⟨⟨nofun, fun ⟨hok, _⟩ => absurd hok hv⟩, nofun, nofun⟩
  · have hwritten : RangeWritten s := not_not.1 fun hw => by
      obtain ⟨i, hi⟩ := (covered_unread_iff hv).2 hw
      rw [hb] at hi
      cases hi
    rw [he]
    exact ⟨⟨nofun, fun ⟨_, hw⟩ => absurd hwritten hw⟩, nofun, nofun⟩
  · obtain ⟨h1, h2, hnone⟩ := Memory.readRange_eq_error hi
    rw [he]
    refine ⟨⟨fun _ => ⟨hv, (covered_unread_iff hv).1 ⟨i, hi⟩⟩, fun _ => ⟨_, rfl⟩⟩,
      fun f hf => ⟨i, ?_, h1, by omega, ?_⟩, nofun⟩
    · cases hf; rfl
    · simp [Memory.Written, hnone]

/-! ### The engine step -/

/-- An engine step that answers a next state has completed its command (60_exceptions.md R108). -/
theorem engineStep_completes {s t : State} (h : engineStep s = .next t) : t.busy = false ∧ t.done = true := by
  rcases engineStep_next h with ⟨code, -, rfl⟩ | ⟨-, -, payload, -, rfl⟩ | ⟨-, -, bytes, -, rfl⟩ <;> exact ⟨rfl, rfl⟩

theorem engineStep_outcome (s : State) :
    (∃ t, engineStep s = .next t) ∨ (∃ f, engineStep s = .fault f) := by
  rw [engineStep_eq]
  cases engineEffect s.cfg s.latch s.pay s.frm with
  | error f => exact .inr ⟨f, rfl⟩
  | ok e => exact .inl ⟨applyEffect s e, rfl⟩

/-- The engine stops only if its command reads a byte that holds no value (70_reset_and_hazards.md R125). -/
theorem not_engineReady_of_fault {s : State} {f : Fault} (h : engineStep s = .fault f) : ¬EngineReady s := by
  rintro ⟨hencode, hchecksum⟩
  rcases engineStep_cases s with ⟨ho, he⟩ | ⟨ho, he⟩ | ⟨-, -, he⟩ <;> rw [he] at h
  · obtain ⟨hv, hw⟩ := (encodeStopsOnlyAtAnUnwrittenPayloadByte s).1.1 ⟨f, h⟩
    exact hw (hencode ho hv)
  · obtain ⟨hv, hw⟩ := (checksumStopsOnlyAtAnUnwrittenFrameByte s).1.1 ⟨f, h⟩
    exact hw (hchecksum ho hv)
  · cases h

/-- Settles O19: with its reads written the engine does not stop, so its step answers a completion. -/
theorem engineStepEndsInACompletion : Obligations.EngineStepEndsInACompletion := by
  intro s hready
  rcases engineStep_outcome s with ⟨t, ht⟩ | ⟨f, hf⟩
  · exact ⟨t, ht, engineStep_completes ht⟩
  · exact absurd hready (not_engineReady_of_fault hf)

/-! ### What an engine step reads and writes -/

/-- An engine step answers the effect it decides from the parameters, the latched operands and the RAMs. -/
theorem engineStep_eq_next_iff {s t : State} :
    engineStep s = .next t ↔ ∃ e, engineEffect s.cfg s.latch s.pay s.frm = .ok e ∧ t = applyEffect s e := by
  rw [engineStep_eq]
  cases engineEffect s.cfg s.latch s.pay s.frm with
  | error f => exact ⟨nofun, fun ⟨_, he, _⟩ => nomatch he⟩
  | ok e =>
    constructor
    · rintro ⟨⟩
      exact ⟨e, rfl, rfl⟩
    · rintro ⟨_, ⟨⟩, rfl⟩
      rfl

/-- A frame leaves every byte past it alone (41_frame_encoder.md R93). -/
theorem read_encoded_of_past {s : State} {payload : List Byte}
    (hp : Memory.readRange s.pay 0 (payloadCount s) = .ok payload) {k : Nat} (hk : 18 + payloadCount s ≤ k) :
    Memory.read (encoded s payload).frm k = Memory.read s.frm k := by
  have hpl : payload.length = payloadCount s := (Memory.readRange_eq_ok.1 hp).1
  simp only [encoded, complete_frm, setResults_frm]
  rw [Memory.read_writeAll, wholeFrame_length, if_neg (by omega)]

/-- Settles O45: an engine step keeps its inputs, and only an ENCODE that completes OK writes FRM, its own frame. -/
theorem engineStepFrame : Obligations.EngineStepFrame := by
  intro s t h
  refine ⟨sameInputs_engineStep h, ?_⟩
  rcases engineStep_next h with ⟨code, -, rfl⟩ | ⟨ho, hv, payload, hp, rfl⟩ | ⟨-, -, bytes, -, rfl⟩
  · exact .inl (complete_frm s code)
  · exact .inr ⟨ho, lengthVerdict_eq_ok.1 hv, rfl, fun k hk => read_encoded_of_past hp hk⟩
  · exact .inl rfl

/-- Settles O46: the effect is decided without the operand registers, and applying it leaves them alone. -/
theorem engineReadsOnlyTheLatchedOperands : Obligations.EngineReadsOnlyTheLatchedOperands := by
  intro s t p c a b h
  obtain ⟨e, he, rfl⟩ := engineStep_eq_next_iff.1 h
  exact engineStep_eq_next_iff.2 ⟨e, he, rfl⟩

/-- Settles O47: the effect is decided without STATUS and the results, and applying it overwrites them all. -/
theorem noCommandReadsAnEarlierResult : Obligations.NoCommandReadsAnEarlierResult := by
  intro s t len ck busy done err h
  obtain ⟨e, he, rfl⟩ := engineStep_eq_next_iff.1 h
  exact engineStep_eq_next_iff.2 ⟨e, he, rfl⟩

end Sys2Proof.Machine
end

section
/-!
PROOF. The registers on the bus (10_state.md R17 to R23): what a read answers and what a write does.
-/

namespace Sys2Proof.Machine

/-! ### Register and RAM accesses on the bus -/

theorem hostAccess_read_reg (s : State) (r : Reg) :
    hostAccess s (.read 4 r.offset) = .next (hear s (.word (regRead s r))) := by
  simp only [hostAccess, target_reg]

theorem hostAccess_write_reg (s : State) (r : Reg) (v : Word) :
    hostAccess s (.write 4 r.offset v) = .next (hear (regWrite s r v) .written) := by
  simp only [hostAccess, target_reg]

theorem hostAccess_read_ram {s : State} {m : Ram} {i : Nat} (h : i < m.size s.cfg) :
    hostAccess s (.read 1 (m.offset i)) = hostRamRead s m i := by
  simp only [hostAccess, target_ram h]

/-- Settles O22: RESULT_LEN after each of an engine step's completions; a host write of it changes no register. -/
theorem resultLengthIsBytesWritten : Obligations.ResultLengthIsBytesWritten := by
  refine ⟨fun s t h => ?_, fun s v => hostAccess_write_reg s .resultLen v⟩
  rcases engineStep_next h with ⟨code, hc, rfl⟩ | ⟨ho, hv, payload, -, rfl⟩ | ⟨ho, -, bytes, -, rfl⟩
  · exact ⟨fun ⟨_, hok⟩ => absurd hok hc, fun _ => by simp [hc]⟩
  · refine ⟨fun _ => ?_, fun hno => absurd ⟨ho, rfl⟩ hno⟩
    have hlen := (frameLength_toNat hv).1
    have h0 := (lengthVerdict_eq_ok.1 hv).1
    show ((BitVec.ofInt 32 (18 + payloadLength s.latch)).toNat : Int) = 18 + payloadLength s.latch
    omega
  · exact ⟨fun ⟨hencode, _⟩ => absurd (ho.symm.trans hencode) (by decide), fun _ => rfl⟩

/-- Settles O6: an operand register's write sets that register alone, and the next read answers it. -/
theorem operandRegistersHoldTheLastWrite : Obligations.OperandRegistersHoldTheLastWrite := by
  refine ⟨fun s v => ⟨hostAccess_write_reg s .plen v, hostAccess_write_reg s .cap v,
    hostAccess_write_reg s .ckStart v, hostAccess_write_reg s .ckEnd v⟩, fun s r v hr => ?_⟩
  have hread : regRead (resetBlock s) r = 0 ∧ regRead (hear (regWrite s r v) .written) r = v := by
    rcases hr with rfl | rfl | rfl | rfl <;> exact ⟨rfl, rfl⟩
  refine ⟨hread.1, _, hostAccess_write_reg s r v, ?_⟩
  rw [hostAccess_read_reg, hread.2]

/-- Settles O14: off the busy FRM, a read answers what the RAM holds, and here it holds nothing. -/
theorem unwrittenByteReadFaults : Obligations.UnwrittenByteReadFaults := by
  intro s m i hi hunwritten hheld
  have hnone : Memory.read (ramOf s m) i = none := Option.not_isSome_iff_eq_none.1 hunwritten
  rw [hostAccess_read_ram hi, hostRamRead_held i hheld, hnone]

/-! ### The status word -/

/-- STATUS bit by bit: BUSY, DONE, two reserved bits, the code, and 0 past the code's four bits (10_state.md R19). -/
theorem statusWord_getLsbD (s : State) (j : Nat) :
    (statusWord s).getLsbD j =
      if j = 0 then s.busy else if j = 1 then s.done else if j < 4 then false else s.err.code.getLsbD (j - 4) := by
  simp only [statusWord, BitVec.getLsbD_append]
  match j with
  | 0 | 1 | 2 | 3 => simp
  | j + 4 =>
    by_cases hj : j < 4
    · simp [hj]
    · have hpast : s.err.code.getLsbD j = false := BitVec.getLsbD_of_ge _ _ (by omega)
      simp [hj, hpast]

theorem regRead_resultCksum_getLsbD (s : State) (j : Nat) :
    (regRead s .resultCksum).getLsbD j = s.resultCksum.getLsbD j := by
  rw [regRead, BitVec.getLsbD_setWidth]
  by_cases hj : j < 8
  · simp [show j < 32 by omega]
  · rw [BitVec.getLsbD_of_ge _ _ (by omega), Bool.and_false]

/-- Settles O4: the bus answers the register, and each register's bits are its fields'. -/
theorem registerReadsAnswerTheirFields : Obligations.RegisterReadsAnswerTheirFields := by
  refine ⟨hostAccess_read_reg, fun s => ⟨rfl, rfl, rfl, rfl, rfl, rfl, ?_, fun j hj => ?_⟩,
    fun s => ⟨statusWord_busy s, statusWord_getLsbD s 1, ?_, ?_, fun j hj => ?_⟩⟩
  · refine BitVec.eq_of_getLsbD_eq fun i hi => ?_
    rw [BitVec.getLsbD_extractLsb', regRead_resultCksum_getLsbD]
    simp [hi]
  · rw [regRead_resultCksum_getLsbD, BitVec.getLsbD_of_ge _ _ hj]
  · refine BitVec.eq_of_getLsbD_eq fun i hi => ?_
    rw [BitVec.getLsbD_extractLsb', regRead, statusWord_getLsbD, if_neg (by omega), if_neg (by omega),
      if_neg (by omega), Nat.add_sub_cancel_left]
    simp [hi]
  · refine BitVec.eq_of_getLsbD_eq fun i hi => ?_
    rw [BitVec.getLsbD_extractLsb', regRead, statusWord_getLsbD, if_neg (by omega), if_neg (by omega),
      if_pos (by omega)]
    simp
  · rw [regRead, statusWord_getLsbD, if_neg (by omega), if_neg (by omega), if_neg (by omega),
      BitVec.getLsbD_of_ge _ _ (by omega)]

end Sys2Proof.Machine
end

section
/-!
PROOF. Whose move a step is (10_state.md R14, R16), and that an idle block's move does not read the latched operands
(10_state.md R21).
-/

namespace Sys2Proof.Machine

theorem engineTurn_eq_false_of_idle {s : State} (h : s.busy = false) : engineTurn s = false := by
  simp [engineTurn, h]

/-- On the engine's turn the block is busy, and the turn is used up before the engine's step. -/
theorem step_of_engineTurn {s : State} (h : engineTurn s = true) : s.busy = true ∧ step s = engineStep (popTurn s) := by
  rcases step_cases s with ⟨hb, -, hs⟩ | ⟨-, he, -⟩ | ⟨hb, -⟩
  · exact ⟨hb, hs⟩
  · rw [h] at he; cases he
  · rw [engineTurn_eq_false_of_idle hb] at h; cases h

theorem step_of_idle {s : State} (h : s.busy = false) : step s = hostMove s := by
  simp [step, engineTurn_eq_false_of_idle h, h]

/-- Settles O50: the engine's step dispatches on what the decoder answers to L.OP. -/
theorem stepRunsTheDecodedCommand : Obligations.StepRunsTheDecodedCommand := by
  intro s h
  obtain ⟨hb, hs⟩ := step_of_engineTurn h
  refine ⟨hb, fun i hd => ?_, fun e hd => ?_⟩ <;> rw [hs, engineStep, popTurn_latch, hd] <;> rfl

/-- Settles O52: an idle step is the host's move, and with no event the host's move changes nothing. -/
theorem engineHasNoStepWhileIdle : Obligations.EngineHasNoStepWhileIdle := by
  intro s h
  refine ⟨engineTurn_eq_false_of_idle h, step_of_idle h, fun hn => ?_⟩
  rw [step_of_idle h, hostMove, hn]

/-! ### The latched operands while idle -/

/-- `o'` is what `o` becomes under other latched operands `l`: the same stop, or the same next state but for the latched
operands, kept as `l` or overwritten as in `o`. -/
def SameButLatch (l : Latch) (o o' : Host.Outcome State Fault Refusal) : Prop :=
  (∀ t, o = .next t → o' = .next { t with latch := l } ∨ o' = .next t) ∧ (∀ f, o = .fault f → o' = .fault f)

theorem sameButLatch_kept (l : Latch) (t : State) : SameButLatch l (.next t) (.next { t with latch := l }) :=
  ⟨fun _ ht => .inl (by cases ht; rfl), nofun⟩

theorem sameButLatch_overwritten (l : Latch) (t : State) : SameButLatch l (.next t) (.next t) :=
  ⟨fun _ ht => .inr ht, nofun⟩

theorem sameButLatch_fault (l : Latch) (f : Fault) : SameButLatch l (.fault f) (.fault f) :=
  ⟨nofun, fun _ hf => hf⟩

theorem sameButLatch_hostRamRead (s : State) (l : Latch) (m : Ram) (i : Nat) :
    SameButLatch l (hostRamRead s m i) (hostRamRead { s with latch := l } m i) := by
  have hram : ramOf { s with latch := l } m = ramOf s m := by cases m <;> rfl
  simp only [hostRamRead, hram]
  split
  · exact sameButLatch_kept l _
  · split
    · exact sameButLatch_fault l _
    · exact sameButLatch_kept l _

theorem sameButLatch_hostRamWrite (s : State) (l : Latch) (m : Ram) (i : Nat) (b : Byte) :
    SameButLatch l (hostRamWrite s m i b) (hostRamWrite { s with latch := l } m i b) := by
  simp only [hostRamWrite]
  split
  · exact sameButLatch_fault l _
  · cases m <;> exact sameButLatch_kept l _

/-- An issue overwrites the latched operands; every other register write keeps them. -/
theorem sameButLatch_regWrite (s : State) (l : Latch) (r : Reg) (v : Word) :
    SameButLatch l (.next (hear (regWrite s r v) .written))
      (.next (hear (regWrite { s with latch := l } r v) .written)) := by
  cases r with
  | cmd =>
    simp only [regWrite]
    split
    · exact sameButLatch_kept l _
    · exact sameButLatch_overwritten l _
  | _ => exact sameButLatch_kept l _

theorem sameButLatch_hostAccess (s : State) (l : Latch) (a : Access) :
    SameButLatch l (hostAccess s a) (hostAccess { s with latch := l } a) := by
  cases a with
  | read n off =>
    simp only [hostAccess]
    split
    · exact sameButLatch_fault l _
    · rename_i r _
      cases r <;> exact sameButLatch_kept l _
    · exact sameButLatch_hostRamRead s l _ _
  | write n off v =>
    simp only [hostAccess]
    split
    · exact sameButLatch_fault l _
    · exact sameButLatch_regWrite s l _ v
    · exact sameButLatch_hostRamWrite s l _ _ _

theorem sameButLatch_hostPoll (s : State) (l : Latch) :
    SameButLatch l (.next (hostPoll s)) (.next (hostPoll { s with latch := l })) := by
  simp only [hostPoll_eq]
  split <;> exact sameButLatch_kept l _

theorem sameButLatch_hostMove (s : State) (l : Latch) :
    SameButLatch l (hostMove s) (hostMove { s with latch := l }) := by
  cases hh : s.host with
  | nil =>
    simp only [hostMove, hh]
    rw [← hh]
    exact sameButLatch_kept l s
  | cons event rest =>
    cases event <;> simp only [hostMove, hh]
    case access a => exact sameButLatch_hostAccess { s with host := rest } l a
    case wait => exact sameButLatch_hostPoll { s with host := rest } l
    case reset => exact sameButLatch_overwritten l _

/-- Settles O48: an idle step is the host's move, which at most overwrites the latched operands. -/
theorem idleStepIgnoresTheLatchedOperands : Obligations.IdleStepIgnoresTheLatchedOperands := by
  intro s l h
  rw [step_of_idle h, step_of_idle (s := { s with latch := l }) h]
  exact sameButLatch_hostMove s l

end Sys2Proof.Machine
end

section
/-!
PROOF. The address map of the bus (20_memory.md R35, R37): exactly the accesses on the map have a target, and where a
transaction stops (R41, 10_state.md R27, 70_reset_and_hazards.md R127).
-/

namespace Sys2Proof.Machine

/-! ### The address map -/

/-- The registers are the multiples of 4 below 0x20 (10_state.md R17). -/
theorem regAt_eq_none {o : Nat} : regAt o = none ↔ ¬(o < 0x20 ∧ o % 4 = 0) := by
  unfold regAt
  split
  case h_9 =>
    simp only [imp_false, true_iff] at *
    omega
  all_goals simp

/-- An access has no target exactly off the map. -/
theorem target_eq_none {c : Config} {n : Nat} {off : Word} : target c n off = none ↔ ¬OnTheMap c n off := by
  unfold target
  split
  · subst n
    simp [OnTheMap, regAt_eq_none]
  · split
    · subst n
      cases hp : Ram.pay.index? c off.toNat with
      | some i =>
        obtain ⟨hlo, hhi, -⟩ := index?_eq_some.1 hp
        have hmap : OnTheMap c 1 off := .inr (.inl ⟨rfl, hlo, hhi⟩)
        simp [hmap]
      | none =>
        have hpay := index?_eq_none.1 hp
        simp only [Ram.base, Ram.size] at hpay
        simp [OnTheMap, index?_eq_none, Ram.base, Ram.size, hpay]
    · rename_i h4 h1
      simp [OnTheMap, h4, h1]

/-! ### Where a transaction stops -/

theorem hostRamRead_fault {s : State} {m : Ram} {i : Nat} {f : Fault} (h : hostRamRead s m i = .fault f) :
    f = .unwrittenRead m i ∧ ¬Memory.Written (ramOf s m) i := by
  unfold hostRamRead at h
  split at h
  · cases h
  · split at h
    · rename_i hnone
      cases h
      exact ⟨rfl, by simp [Memory.Written, hnone]⟩
    · cases h

theorem hostRamWrite_fault {s : State} {m : Ram} {i : Nat} {b : Byte} {f : Fault}
    (h : hostRamWrite s m i b = .fault f) : f = .ramWriteWhileBusy m i ∧ s.busy = true := by
  unfold hostRamWrite at h
  split at h
  · cases h; exact ⟨rfl, ‹_›⟩
  · cases h

/-- What stops a transaction in this state: a bus error, an unwritten RAM byte, or a RAM write while busy. -/
def AccessFault (s : State) (f : Fault) : Prop :=
  (∃ off, f = .busError off) ∨
  (∃ m i, f = .unwrittenRead m i ∧ ¬Memory.Written (ramOf s m) i ∧ i < m.size s.cfg) ∨
  (∃ m i, f = .ramWriteWhileBusy m i ∧ s.busy = true ∧ i < m.size s.cfg)

/-- Every fault of a transaction, a bus error only off the map. -/
theorem hostAccess_fault {s : State} {a : Access} {f : Fault} (h : hostAccess s a = .fault f) :
    AccessFault s f ∧ (a.OnTheMap s.cfg → ∀ off, f ≠ .busError off) := by
  cases a with
  | read n off =>
    simp only [hostAccess] at h
    split at h
    · rename_i hn
      cases h
      exact ⟨.inl ⟨off, rfl⟩, fun hon => absurd hon (target_eq_none.1 hn)⟩
    · cases h
    · rename_i m i hm
      obtain ⟨rfl, hunwritten⟩ := hostRamRead_fault h
      exact ⟨.inr (.inl ⟨m, i, rfl, hunwritten, lt_size_of_target hm⟩), fun _ _ => nofun⟩
  | write n off v =>
    simp only [hostAccess] at h
    split at h
    · rename_i hn
      cases h
      exact ⟨.inl ⟨off, rfl⟩, fun hon => absurd hon (target_eq_none.1 hn)⟩
    · cases h
    · rename_i m i hm
      obtain ⟨rfl, hb⟩ := hostRamWrite_fault h
      exact ⟨.inr (.inr ⟨m, i, rfl, hb, lt_size_of_target hm⟩), fun _ _ => nofun⟩

theorem hostAccess_ne_busError {s : State} {a : Access} (h : a.OnTheMap s.cfg) (off : Word) :
    hostAccess s a ≠ .fault (.busError off) := fun hf => (hostAccess_fault hf).2 h off rfl

/-- Settles O12: an access without a target is a bus error, and on the map every access has a target. -/
theorem onlyMappedAccessesAreAnswered : Obligations.OnlyMappedAccessesAreAnswered := by
  refine fun s n off v => ⟨fun hoff => ?_, fun hon a => ⟨?_, ?_⟩⟩
  · have hnone := target_eq_none.2 hoff
    simp only [hostAccess, hnone, and_self]
  · exact hostAccess_ne_busError (a := .read n off) hon a
  · exact hostAccess_ne_busError (a := .write n off v) hon a

/-! ### Where a step stops -/

/-- An engine step stops only at a read of a byte that holds no value (10_state.md R27). -/
theorem engineStep_fault {s : State} {f : Fault} (h : engineStep s = .fault f) :
    ¬EngineReady s ∧ ∃ m i, f = .unwrittenRead m i := by
  refine ⟨not_engineReady_of_fault h, ?_⟩
  rcases engineStep_cases s with ⟨-, he⟩ | ⟨-, he⟩ | ⟨-, -, he⟩ <;> rw [he] at h
  · obtain ⟨j, hj, -⟩ := (encodeStopsOnlyAtAnUnwrittenPayloadByte s).2.1 f h
    exact ⟨.pay, j, hj⟩
  · obtain ⟨i, hi, -⟩ := (checksumStopsOnlyAtAnUnwrittenFrameByte s).2.1 f h
    exact ⟨.frm, i, hi⟩
  · cases h

theorem hostMove_access {s : State} {a : Access} {rest : List Event} (h : s.host = .access a :: rest) :
    hostMove s = hostAccess { s with host := rest } a := by rw [hostMove, h]

/-- Of the host's moves only a transaction can stop. -/
theorem hostMove_fault {s : State} {f : Fault} (h : hostMove s = .fault f) :
    ∃ a rest, s.host = .access a :: rest ∧ AccessFault s f := by
  unfold hostMove at h
  split at h
  · cases h
  · rename_i a rest hh
    have hstop := (hostAccess_fault h).1
    exact ⟨a, rest, hh, hstop⟩
  · cases h
  · cases h

theorem engineStep_ne_refused (s : State) (r : Refusal) : engineStep s ≠ .refused r := by
  rcases engineStep_outcome s with ⟨t, ht⟩ | ⟨f, hf⟩
  · rw [ht]; nofun
  · rw [hf]; nofun

theorem hostMove_ne_refused (s : State) (r : Refusal) : hostMove s ≠ .refused r := by
  unfold hostMove
  split
  · nofun
  · rename_i a rest _
    rcases hostAccess_outcome { s with host := rest } a with ⟨t, ht⟩ | ⟨f, hf⟩
    · rw [ht]; nofun
    · rw [hf]; nofun
  · nofun
  · nofun

/-- Settles O55: a step is one agent's move; the engine stops at an unwritten byte, the host at a transaction's fault. -/
theorem stepStopsOnlyWhereTheSpecSays : Obligations.StepStopsOnlyWhereTheSpecSays := by
  intro s
  rcases step_cases s with ⟨-, he, hs⟩ | ⟨-, he, hs⟩ | ⟨hb, hs⟩ <;> rw [hs]
  · refine ⟨engineStep_ne_refused _, fun f hf => ?_⟩
    have hstop := engineStep_fault hf
    exact .inl ⟨he, hstop⟩
  · refine ⟨hostMove_ne_refused _, fun f hf => ?_⟩
    obtain ⟨a, rest, hh, hstop⟩ := hostMove_fault hf
    exact .inr ⟨a, rest, he, hh, hstop⟩
  · refine ⟨hostMove_ne_refused _, fun f hf => ?_⟩
    obtain ⟨a, rest, hh, hstop⟩ := hostMove_fault hf
    exact .inr ⟨a, rest, engineTurn_eq_false_of_idle hb, hh, hstop⟩

end Sys2Proof.Machine
end

section
/-!
PROOF. Reads and writes of the RAM windows and the registers on the bus (20_memory.md R38 to R40): what a byte write
changes, and that a read changes nothing but what was heard.
-/

namespace Sys2Proof.Machine

/-! ### RAM bytes on the bus -/

@[simp] theorem ramOf_ramWrite_same (s : State) (m : Ram) (i : Nat) (b : Byte) :
    ramOf (ramWrite s m i b) m = Memory.write (ramOf s m) i b := by cases m <;> rfl

theorem ramOf_ramWrite_other (s : State) {m m' : Ram} (i : Nat) (b : Byte) (h : m' ≠ m) :
    ramOf (ramWrite s m i b) m' = ramOf s m' := by
  cases m with
  | pay =>
    cases m' with
    | pay => exact absurd rfl h
    | frm => rfl
  | frm =>
    cases m' with
    | pay => rfl
    | frm => exact absurd rfl h

/-- Neither an answer nor the draw counter is a register. -/
theorem sameRegisters_hear (s : State) (draws : Nat) (r : Response) :
    SameRegisters s (hear { s with draws := draws } r) := by constructor <;> rfl

theorem sameRegisters_ramWrite (s : State) (m : Ram) (i : Nat) (b : Byte) (r : Response) :
    SameRegisters s (hear (ramWrite s m i b) r) := by constructor <;> simp

theorem hostAccess_write_ram {s : State} {m : Ram} {i : Nat} (v : Word) (h : i < m.size s.cfg) :
    hostAccess s (.write 1 (m.offset i) v) = hostRamWrite s m i (v.setWidth 8) := by
  simp only [hostAccess, target_ram h]

theorem hostRamWrite_of_idle {s : State} (m : Ram) (i : Nat) (b : Byte) (h : s.busy = false) :
    hostRamWrite s m i b = .next (hear (ramWrite s m i b) .written) := by simp [hostRamWrite, h]

/-- Settles O13: an idle byte write is one RAM write, and a read off the busy FRM answers what the RAM holds. -/
theorem ramWindowsReadAndWriteBytes : Obligations.RamWindowsReadAndWriteBytes := by
  refine fun s m i b hi => ⟨fun hb => ?_, fun hheld hread => ?_⟩
  · have hbyte : (b.setWidth 32).setWidth 8 = b := by simp
    refine ⟨hear (ramWrite s m i b) .written, ?_, sameRegisters_ramWrite s m i b _, by simp, by simp,
      fun j hj => ?_, fun m' hm => ?_⟩
    · rw [hostAccess_write_ram _ hi, hbyte, hostRamWrite_of_idle m i b hb]
    · rw [ramOf_hear, ramOf_ramWrite_same, Memory.read_write_other _ b hj]
    · rw [ramOf_hear, ramOf_ramWrite_other s i b hm]
  · rw [hostAccess_read_ram hi, hostRamRead_held i hheld, hread]

/-! ### Reads -/

@[simp] theorem regRead_hear (s : State) (a : Response) (r : Reg) : regRead (hear s a) r = regRead s r := by
  cases r <;> rfl

/-- Every next state of a read: a free byte drawn from the busy FRM, or an answer that the same read then repeats. -/
theorem hostAccess_read_next {s t : State} {n : Nat} {off : Word} (h : hostAccess s (.read n off) = .next t) :
    (∃ i r, target s.cfg n off = some (.ram .frm i) ∧ s.busy = true ∧ t = hear { s with draws := s.draws + 1 } r) ∨
    (∃ r, t = hear s r ∧ hostAccess t (.read n off) = .next (hear t r)) := by
  simp only [hostAccess] at h ⊢
  split at h
  · cases h
  · rename_i r hr
    cases h
    exact .inr ⟨_, rfl, by simp [hr]⟩
  · rename_i m i hm
    by_cases hheld : m = .pay ∨ s.busy = false
    · rw [hostRamRead_held i hheld] at h
      split at h
      · cases h
      · rename_i b hb
        cases h
        refine .inr ⟨_, rfl, ?_⟩
        simp only [hear_cfg, hm]
        rw [hostRamRead_held (s := hear s (.byte b)) i hheld, ramOf_hear, hb]
    · obtain ⟨hpay, hb⟩ := not_or.1 hheld
      rw [Bool.not_eq_false] at hb
      cases m with
      | pay => exact absurd rfl hpay
      | frm =>
        rw [hostRamRead_free i hb] at h
        cases h
        exact .inl ⟨i, _, hm, hb, rfl⟩

/-- Settles O17: a read's answer is heard, and at most a draw is counted. -/
theorem readsHaveNoSideEffect : Obligations.ReadsHaveNoSideEffect := by
  intro s t n off h
  rcases hostAccess_read_next h with ⟨i, r, hi, hb, rfl⟩ | ⟨r, rfl, hagain⟩
  · exact ⟨sameRegisters_hear s _ r, rfl, rfl, rfl, rfl, fun hidle => absurd (hidle i hi) (by simp [hb])⟩
  · exact ⟨sameRegisters_hear s s.draws r, rfl, rfl, rfl, rfl, fun _ => ⟨r, rfl, hagain⟩⟩

/-! ### Read-only registers -/

/-- Settles O5: the write is answered, and a read-only register ignores it. -/
theorem readOnlyRegistersIgnoreWrites : Obligations.ReadOnlyRegistersIgnoreWrites := by
  intro s r v hr
  rw [hostAccess_write_reg]
  rcases hr with rfl | rfl | rfl <;> rfl

end Sys2Proof.Machine
end

section
/-!
PROOF. Issue (20_memory.md R44, R45): what a CMD write does, that a command in flight keeps the results until its
completion, and both orders of a second CMD write and the engine's step.
-/

namespace Sys2Proof.Machine

/-! ### A CMD write -/

theorem hostAccess_cmd_of_idle {s : State} (v : Word) (h : s.busy = false) :
    hostAccess s (.write 4 0x00 v) = .next (hear (issue s v) .written) :=
  (hostAccess_write_reg s .cmd v).trans (by simp [regWrite, h])

theorem hostAccess_cmd_of_busy {s : State} (v : Word) (h : s.busy = true) :
    hostAccess s (.write 4 0x00 v) = .next (hear s .written) :=
  (hostAccess_write_reg s .cmd v).trans (by simp [regWrite, h])

/-! ### The results while a command is in flight -/

/-- The two states hold the same results. -/
def SameResults (s t : State) : Prop := t.resultLen = s.resultLen ∧ t.resultCksum = s.resultCksum

theorem sameResults_regWrite (s : State) (r : Reg) (v : Word) : SameResults s (regWrite s r v) := by
  rcases regWrite_cases s r v with ⟨-, -, h⟩ | ⟨-, -, h⟩ | ⟨-, h⟩ | ⟨-, h⟩ | ⟨-, h⟩ | ⟨-, h⟩ | ⟨-, h⟩ <;>
    rw [h] <;> exact ⟨rfl, rfl⟩

theorem sameResults_hostAccess {s t : State} {a : Access} (h : hostAccess s a = .next t) : SameResults s t := by
  rcases hostAccess_next h with ⟨r, rfl⟩ | ⟨r, rfl⟩ | ⟨r, v, rfl⟩ | ⟨m, i, b, -, -, rfl⟩
  · exact ⟨rfl, rfl⟩
  · exact ⟨rfl, rfl⟩
  · exact sameResults_regWrite s r v
  · exact ⟨ramWrite_resultLen s m i b, ramWrite_resultCksum s m i b⟩

theorem sameResults_hostPoll (s : State) : SameResults s (hostPoll s) := by
  rw [hostPoll_eq]
  split <;> exact ⟨rfl, rfl⟩

/-- Of the host's moves only a reset touches the results, and it leaves the block idle. -/
theorem sameResults_hostMove {s t : State} (h : hostMove s = .next t) (hb : t.busy = true) : SameResults s t := by
  rcases hostMove_next h with ⟨-, rfl⟩ | ⟨a, rest, -, ha⟩ | ⟨rest, -, rfl⟩ | ⟨rest, -, rfl⟩
  · exact ⟨rfl, rfl⟩
  · have hkeep := sameResults_hostAccess ha
    exact hkeep
  · exact sameResults_hostPoll { s with host := rest }
  · cases hb

/-- Settles O8: a CMD write is an issue while idle and ignored while busy; and a step that leaves a command in flight is no
engine step, since that completes, but a host move. -/
theorem commandWriteIssuesWhileIdle : Obligations.CommandWriteIssuesWhileIdle := by
  refine ⟨fun s v => ⟨hostAccess_cmd_of_idle v, hostAccess_cmd_of_busy v⟩, fun s t _ h hb => ?_⟩
  rcases step_cases s with ⟨-, -, hs⟩ | ⟨-, -, hs⟩ | ⟨-, hs⟩ <;> rw [hs] at h
  · exact absurd hb (by simp [(engineStep_completes h).1])
  · have hkeep := sameResults_hostMove h hb
    exact hkeep
  · exact sameResults_hostMove h hb

/-! ### A second CMD write -/

theorem engineTurn_eq_false_of_host {s : State} {event : Event} {rest : List Event} {ts : List Agent}
    (hh : s.host = event :: rest) (ht : s.turns = .host :: ts) : engineTurn s = false := by simp [engineTurn, hh, ht]

theorem engineTurn_eq_true_of_engine {s : State} {ts : List Agent} (hb : s.busy = true)
    (ht : s.turns = .engine :: ts) : engineTurn s = true := by simp [engineTurn, hb, ht]

theorem step_of_host_turn {s : State} (hb : s.busy = true) (he : engineTurn s = false) :
    step s = hostMove (popTurn s) := by simp [step, hb, he]

/-- Settles O53: before the engine's step the write finds the block busy, after it idle, with the host's events kept. -/
theorem bothOrdersOfASecondCommandAreAdmitted : Obligations.BothOrdersOfASecondCommandAreAdmitted := by
  refine fun s v rest ts hb hh => ⟨fun ht => ?_, fun ht => ?_⟩
  · rw [step_of_host_turn hb (engineTurn_eq_false_of_host hh ht), hostMove_access (s := popTurn s) hh,
      hostAccess_cmd_of_busy v (by exact hb), popTurn, ht]
    rfl
  · obtain ⟨-, hs⟩ := step_of_engineTurn (engineTurn_eq_true_of_engine hb ht)
    rw [hs]
    refine ⟨by rw [popTurn, ht]; rfl, fun t h => ?_⟩
    have hidle := (engineStep_completes h).1
    have hhost : t.host = .access (.write 4 0x00 v) :: rest := (sameInputs_engineStep h).host.trans hh
    rw [step_of_idle hidle, hostMove_access hhost, hostAccess_cmd_of_idle v (by exact hidle)]

/-! ### A word placed as the command in flight -/

/-- A command has one command word (30_encoding.md R57). -/
theorem eq_encode_of_decode {w : Word} {i : Instr} (h : decode w = .ok i) : w = encode i := by
  rcases decode_cases w with ⟨hw, hd⟩ | ⟨hw, hd⟩ | ⟨-, -, hd⟩ <;> rw [hd] at h
  · cases h; exact hw
  · cases h; exact hw
  · cases h

theorem decode_of_decodeTableWord {nbits w : Nat} {i : Instr} (h : decodeTableWord nbits w = some i) :
    decode (commandWord nbits w) = .ok i := by
  unfold decodeTableWord at h
  split at h
  · split at h
    · cases h; assumption
    · cases h
  · cases h

/-- Settles O51: the placed word is latched with the engine's turn next, and that turn used up leaves the issued state. -/
theorem placedWordIsTheNextCommand : Obligations.PlacedWordIsTheNextCommand := by
  intro s nbits w i h
  have hd := decode_of_decodeTableWord h
  have hturn : engineTurn (s.withFetchWord nbits w) = true := engineTurn_eq_true_of_engine rfl rfl
  obtain ⟨-, hrun, -⟩ := stepRunsTheDecodedCommand _ hturn
  rw [hrun i hd, ← eq_encode_of_decode hd]
  rfl

end Sys2Proof.Machine
end

section
/-!
PROOF. The encodings (30_encoding.md): command words decode and encode both ways (R56, R57, R59), the invariant leaves
STATUS seven values (R61), and a well-formed script line expands to transactions on the address map (R64, R65).
-/

namespace Sys2Proof.Machine

/-! ### Command words -/

theorem decode_of_illegal {w : Word} (h1 : w ≠ 0x00000001#32) (h2 : w ≠ 0x00000002#32) :
    decode w = .error (.illegalCommand w) := by rw [decode, if_neg h1, if_neg h2]

/-- Settles O1: the two words of the table round-trip, and each of the three others is neither of them. -/
theorem commandWordsDecodeAsTabled : Obligations.CommandWordsDecodeAsTabled :=
  ⟨Laws.RoundTrip.encode rfl, Laws.RoundTrip.checksum rfl, decode_of_illegal (by decide) (by decide),
    decode_of_illegal (by decide) (by decide), decode_of_illegal (by decide) (by decide)⟩

/-- Settles O2: each command round-trips, and only its own word decodes to it. -/
theorem decoderAndEncoderAgree : Obligations.DecoderAndEncoderAgree := by
  refine ⟨fun i => ?_, fun w i h => eq_encode_of_decode h⟩
  cases i with
  | encode => exact Laws.RoundTrip.encode
  | checksum => exact Laws.RoundTrip.checksum

/-! ### The values of STATUS -/

/-- A legal STATUS is idle, busy, or a completion; outside a completion the code is OK (30_encoding.md R61). -/
theorem StatusLegal.cases {s : State} (h : StatusLegal s) :
    (s.busy = false ∧ s.done = false ∧ s.err = .ok) ∨ (s.busy = true ∧ s.done = false ∧ s.err = .ok) ∨
    ∃ code, CompletedWith s code := by
  cases hd : s.done with
  | false =>
    have hcode := h.codeOnlyDone hd
    cases hb : s.busy with
    | false => exact .inl ⟨rfl, rfl, hcode⟩
    | true => exact .inr (.inl ⟨rfl, rfl, hcode⟩)
  | true =>
    have hidle : s.busy = false := Bool.eq_false_iff.2 fun hb => nomatch hd.symm.trans (h.notBoth hb)
    exact .inr (.inr ⟨s.err, hidle, hd, rfl⟩)

theorem regRead_status_of_flags {s : State} {busy done : Bool} {code : ErrCode} (hb : s.busy = busy)
    (hd : s.done = done) (he : s.err = code) :
    regRead s .status = (0 : BitVec 24) ++ code.code ++ (0 : BitVec 2) ++ BitVec.ofBool done ++ BitVec.ofBool busy := by
  subst hb hd he
  rfl

/-- Settles O7: the invariant makes STATUS legal, and the flags of each legal STATUS give its value. -/
theorem statusReadsOneOfSevenValues : Obligations.StatusReadsOneOfSevenValues := by
  intro s hi
  rcases hi.status.cases with ⟨hb, hd, he⟩ | ⟨hb, hd, he⟩ | ⟨code, hc⟩
  · exact .inl ⟨hb, hd, regRead_status_of_flags hb hd he⟩
  · exact .inr (.inl ⟨hb, hd, regRead_status_of_flags hb hd he⟩)
  · have hread := regRead_status_of_flags hc.busy hc.done hc.err
    cases code with
    | ok => exact .inr (.inr (.inl ⟨hc, hread⟩))
    | illegalCommand => exact .inr (.inr (.inr (.inl ⟨hc, hread⟩)))
    | invalidPayloadLength => exact .inr (.inr (.inr (.inr (.inl ⟨hc, hread⟩))))
    | frameTooLarge => exact .inr (.inr (.inr (.inr (.inr (.inl ⟨hc, hread⟩)))))
    | invalidRange => exact .inr (.inr (.inr (.inr (.inr (.inr ⟨hc, hread⟩)))))

/-! ### Script lines -/

/-- A transaction is well-formed and on the address map; a poll of WAIT and a reset have no address to check. -/
def Event.Legal (c : Config) : Event → Prop
  | .access a => a.wellFormed = true ∧ a.OnTheMap c
  | .wait => True
  | .reset => True

theorem onTheMap_of_target {c : Config} {n : Nat} {off : Word} {x : Target} (h : target c n off = some x) :
    OnTheMap c n off := by
  by_contra hoff
  exact nomatch h.symm.trans (target_eq_none.2 hoff)

theorem readReg_legal (c : Config) (r : Reg) : Event.Legal c (.access (.read 4 r.offset)) :=
  ⟨rfl, onTheMap_of_target (target_reg c r)⟩

theorem writeReg_legal (c : Config) (r : Reg) (imm : Int) : (writeReg r imm).Legal c :=
  ⟨rfl, onTheMap_of_target (target_reg c r)⟩

theorem inRam_iff {c : Config} {m : Ram} {i n : Nat} : inRam c m i n = true ↔ i + n ≤ m.size c := decide_eq_true_iff

section
variable {c : Config} {m : Ram} {i : Nat}

theorem readByte_legal (h : i < m.size c) : (readByte m i).Legal c := ⟨rfl, onTheMap_of_target (target_ram h)⟩

/-- The data of a `WRB` is a byte, so a 1-byte write can carry it (20_memory.md R38). -/
theorem writeByte_legal (b : Byte) (h : i < m.size c) : (writeByte m i b).Legal c := by
  have hbyte : (b.setWidth 32).toNat < 256 := by
    rw [BitVec.toNat_setWidth_of_le (by decide)]
    exact b.isLt
  exact ⟨decide_eq_true hbyte, onTheMap_of_target (target_ram h)⟩

theorem loadBytes_legal {bs : List Byte} (h : i + bs.length ≤ m.size c) : ∀ e ∈ loadBytes m i bs, e.Legal c := by
  induction bs generalizing i with
  | nil => exact fun e he => nomatch he
  | cons b bs ih =>
    rw [List.length_cons] at h
    exact List.forall_mem_cons.2 ⟨writeByte_legal b (by omega), ih (by omega)⟩

theorem readBytes_legal {n : Nat} (h : i + n ≤ m.size c) :
    ∀ e ∈ (List.range n).map (fun j => readByte m (i + j)), e.Legal c := by
  refine List.forall_mem_map.2 fun j hj => readByte_legal ?_
  have := List.mem_range.1 hj
  omega

end

/-- Every event of a well-formed line is legal: its ranges are those of the RAM windows (30_encoding.md R64, R65). -/
theorem ScriptLine.expand_legal {c : Config} {l : ScriptLine} (h : l.wellFormed c = true) :
    ∀ e ∈ l.expand, e.Legal c := by
  cases l with
  | wr r imm => exact List.forall_mem_singleton.2 (writeReg_legal c r imm)
  | rd r => exact List.forall_mem_singleton.2 (readReg_legal c r)
  | wrb m i b => exact List.forall_mem_singleton.2 (writeByte_legal b (inRam_iff.1 h))
  | rdb m i => exact List.forall_mem_singleton.2 (readByte_legal (inRam_iff.1 h))
  | encode => exact List.forall_mem_singleton.2 (writeReg_legal c .cmd 1)
  | checksum => exact List.forall_mem_singleton.2 (writeReg_legal c .cmd 2)
  | wait => exact List.forall_mem_singleton.2 trivial
  | loadPay i bs => exact loadBytes_legal (inRam_iff.1 (Bool.and_eq_true_iff.1 h).2)
  | loadFrm i bs => exact loadBytes_legal (inRam_iff.1 (Bool.and_eq_true_iff.1 h).2)
  | readFrm i n => exact readBytes_legal (inRam_iff.1 h)

/-- Settles O59: a transaction of the expansion is one of its events, and all of these are legal. -/
theorem wellFormedScriptLinesStayOnTheMap : Obligations.WellFormedScriptLinesStayOnTheMap :=
  fun _ _ a hl ha => ScriptLine.expand_legal hl (.access a) ha

end Sys2Proof.Machine
end

section
/-!
PROOF. The checksum function (40_checksum.md R70 to R74) and the CHECKSUM command (R75, R76): the forms of the function
come from the sum of its bytes, and the command's results from the bytes its range reads as.
-/

namespace Sys2Proof.Machine

/-! ### The checksum function -/

@[simp] theorem checksum_nil : checksum [] = 0xFF := rfl

/-- The checksum complements the sum of its bytes to 0xFF (40_checksum.md R72). -/
theorem checksum_toNat_add_sum8 (bs : List Byte) : (checksum bs).toNat + sum8 bs = 0xFF := by
  have := checksum_toNat bs
  have := sum8_lt bs
  omega

/-- Which byte a checksum is, read off the sum of its bytes (40_checksum.md R71). -/
theorem checksum_eq_iff {bs : List Byte} {v : Byte} : checksum bs = v ↔ v.toNat + sum8 bs = 0xFF := by
  have := checksum_toNat_add_sum8 bs
  rw [← BitVec.toNat_inj]
  omega

/-- The ones' complement of the sum's low byte (40_checksum.md R70). -/
theorem checksum_eq_not (bs : List Byte) : checksum bs = ~~~BitVec.ofNat 8 (byteSum bs) := by
  apply BitVec.eq_of_toNat_eq
  rw [checksum_toNat, BitVec.toNat_not, BitVec.toNat_ofNat, sum8]

theorem sum8_append_checksum (bs : List Byte) : sum8 (bs ++ [checksum bs]) = 0xFF := by
  have hc : (checksum bs).toNat + byteSum bs % 256 = 0xFF := checksum_toNat_add_sum8 bs
  rw [sum8, byteSum_append, byteSum_cons, byteSum_nil]
  omega

theorem checksum_append_checksum (bs : List Byte) : checksum (bs ++ [checksum bs]) = 0x00 :=
  checksum_eq_iff.2 (by rw [sum8_append_checksum]; rfl)

/-- Settles O40: the checksum complements the sum to 0xFF, and the complement of 0xFF is 0x00. -/
theorem checksumByteValidatesItsBytes : Obligations.ChecksumByteValidatesItsBytes :=
  fun bs => ⟨sum8_append_checksum bs, checksum_append_checksum bs⟩

/-- Settles O41: each form is the checksum's value, 0xFF less the sum modulo 256. -/
theorem checksumFormsAgree : Obligations.ChecksumFormsAgree := by
  intro bs
  have hval : (checksum bs).toNat = 0xFF - byteSum bs % 256 := checksum_toNat bs
  refine ⟨hval, ?_, checksum_eq_not bs, ?_⟩
  · rw [hval]
    omega
  · rw [show (0xFF : Nat) = 2 ^ 8 - 1 by rfl, Nat.and_two_pow_sub_one_eq_mod]
    exact Nat.mod_eq_of_lt (by omega)

/-- The checksum of a byte alone is its complement, so every byte is a checksum. -/
theorem checksum_singleton_not (v : Byte) : checksum [~~~v] = v := by
  rw [checksum_eq_not, byteSum_cons, byteSum_nil, Nat.add_zero, BitVec.ofNat_toNat, BitVec.setWidth_eq, BitVec.not_not]

/-- Settles O42: the complement of a byte has that byte as its checksum, and the sum says which byte a checksum is. -/
theorem checksumTakesEveryByteValue : Obligations.ChecksumTakesEveryByteValue := by
  refine ⟨fun v => ⟨[~~~v], checksum_singleton_not v⟩, fun bs => ⟨?_, ?_⟩⟩
  · rw [checksum_eq_iff, show (0x00 : Byte).toNat = 0 by rfl, Nat.zero_add]
  · rw [checksum_eq_iff, show (0xFF : Byte).toNat = 0xFF by rfl, Nat.add_eq_left]

/-- The accumulator holds the sum modulo 256 on top of what it started with (40_checksum.md R74). -/
theorem foldl_accAdd (bs : List Byte) (acc : Byte) : bs.foldl accAdd acc = acc + BitVec.ofNat 8 (byteSum bs) := by
  induction bs generalizing acc with
  | nil => simp
  | cons b bs ih =>
    rw [List.foldl_cons, ih, accAdd, byteSum_cons, BitVec.ofNat_add, BitVec.ofNat_toNat, BitVec.setWidth_eq,
      BitVec.add_assoc]

theorem byteSum_eq_of_perm {bs bs' : List Byte} (h : bs.Perm bs') : byteSum bs = byteSum bs' := by
  induction h with
  | nil => rfl
  | cons b _ ih => rw [byteSum_cons, byteSum_cons, ih]
  | swap b b' bs => exact Nat.add_left_comm _ _ _
  | trans _ _ ih ih' => exact ih.trans ih'

/-- Settles O44: the accumulator cleared ends at the sum's low byte, and no order of the bytes changes their sum. -/
theorem streamingAccumulatorRealisesChecksum : Obligations.StreamingAccumulatorRealisesChecksum := by
  refine ⟨fun bs => ?_, fun bs bs' h => ?_⟩
  · rw [checksumStream, foldl_accAdd, zero_add, checksum_eq_not]
  · rw [checksum_eq_not, checksum_eq_not, byteSum_eq_of_perm h]

/-! ### The CHECKSUM command -/

section
variable {s : State}

theorem execChecksum_of_invalid (hv : ¬validRange s.cfg s.latch) : execChecksum s = .next (complete s .invalidRange) :=
  if_neg hv

theorem execChecksum_of_bytes (hv : validRange s.cfg s.latch) {bytes : List Byte} (hb : coveredBytes s = .ok bytes) :
    execChecksum s = .next (complete (setResults s 0 (checksum bytes)) .ok) := by
  rcases execChecksum_cases s with ⟨hn, -⟩ | ⟨-, bytes', hb', he⟩ | ⟨-, i, hi, -⟩
  · exact absurd hv hn
  · cases hb.symm.trans hb'
    exact he
  · cases hb.symm.trans hi

theorem exists_coveredBytes (hv : validRange s.cfg s.latch) (hw : RangeWritten s) :
    ∃ bytes, coveredBytes s = .ok bytes :=
  Memory.exists_readRange (by rwa [Nat.add_sub_cancel' hv.1])

/-- The sum CHECKSUM complements is that of the covered byte values (40_checksum.md R68, R75). -/
theorem sum_val_of_coveredBytes (hv : validRange s.cfg s.latch) {bytes : List Byte} (hb : coveredBytes s = .ok bytes) :
    ∑ i ∈ Finset.Ico (rangeStart s.latch) (rangeEnd s.latch), Memory.val s.frm i = byteSum bytes := by
  rw [← sum_val_of_readRange hb, Nat.add_sub_cancel' hv.1]

end

/-- Settles O36: a valid, written range reads as bytes, whose checksum completes OK; any other range is an error. -/
theorem checksumCommandResult : Obligations.ChecksumCommandResult := by
  intro s
  constructor
  · intro hse hend hw
    obtain ⟨bytes, hb⟩ := exists_coveredBytes ⟨hse, hend⟩ hw
    refine ⟨_, execChecksum_of_bytes ⟨hse, hend⟩ hb, completedWith_complete _ _, rfl, ?_, rfl,
      sameInputs_applyEffect s (s.frm, 0, checksum bytes, .ok)⟩
    rw [sum_val_of_coveredBytes ⟨hse, hend⟩ hb]
    exact checksum_toNat bytes
  · intro hv
    exact ⟨_, execChecksum_of_invalid hv, completedWith_complete _ _, rfl, rfl, complete_frm _ _,
      sameInputs_complete _ _⟩

/-- Settles O43: an empty range reads no byte, and the checksum of no byte is 0xFF. -/
theorem emptyRangeChecksToFF : Obligations.EmptyRangeChecksToFF := by
  intro s hse hend
  have hb : coveredBytes s = .ok [] := by rw [coveredBytes, hse, Nat.sub_self]; rfl
  exact ⟨_, execChecksum_of_bytes ⟨hse.le, hend⟩ hb, completedWith_complete _ _, checksum_nil⟩

/-- Settles O38: the range and the bytes it reads as are the same, and they fix the code and the checksum. -/
theorem checksumIsDeterministicInItsRange : Obligations.ChecksumIsDeterministicInItsRange := by
  intro s s' t hcfg hcks hcke hread h
  have hstart : rangeStart s'.latch = rangeStart s.latch := congrArg BitVec.toNat hcks
  have hend : rangeEnd s'.latch = rangeEnd s.latch := congrArg BitVec.toNat hcke
  have hvalid : validRange s'.cfg s'.latch ↔ validRange s.cfg s.latch := by rw [validRange, hstart, hend, hcfg]
  have hbytes : coveredBytes s' = coveredBytes s := by
    rw [coveredBytes, hstart, hend]
    exact Memory.readRange_congr fun i h1 h2 => hread i h1 (by omega)
  rw [exec] at h
  rcases execChecksum_cases s with ⟨hv, he⟩ | ⟨hv, bytes, hb, he⟩ | ⟨-, i, -, he⟩ <;> rw [he] at h
  · cases h
    exact ⟨_, execChecksum_of_invalid (mt hvalid.1 hv), rfl, rfl⟩
  · cases h
    exact ⟨_, execChecksum_of_bytes (hvalid.2 hv) (hbytes.trans hb), rfl, rfl⟩
  · cases h

/-! ### The frame ENCODE just wrote -/

/-- The last bytes of a list that was written read back as they are. -/
theorem readRange_writeAll_append (m : Memory) (i : Nat) (bs bs' : List Byte) :
    Memory.readRange (Memory.writeAll m i (bs ++ bs')) (i + bs.length) bs'.length = .ok bs' := by
  refine Memory.readRange_eq_ok.2 ⟨rfl, fun k hk => ?_⟩
  rw [Memory.read_writeAll, List.length_append, if_pos (by omega), List.getElem?_append_right (by omega)]
  congr 1
  omega

/-- Past its delimiter and length field, a whole frame is the covered bytes and their checksum (30_encoding.md R55). -/
theorem readRange_wholeFrame (c : Config) (lc : LengthOut) (frm : Memory) (payload : List Byte) :
    Memory.readRange (Memory.writeAll frm 0 (wholeFrame c lc payload)) 3 (15 + payload.length) =
      .ok (c.rom.toList ++ payload ++ [checksum (c.rom.toList ++ payload)]) := by
  have h := readRange_writeAll_append frm 0 [startDelimiter, lc.hi, lc.lo]
    (c.rom.toList ++ payload ++ [checksum (c.rom.toList ++ payload)])
  rwa [show List.length (c.rom.toList ++ payload ++ [_]) = 15 + payload.length by simp; omega] at h

/-- An ENCODE that completes OK passed its checks and wrote the frame of the payload it read. -/
theorem execEncode_ok {s t : State} (h : execEncode s = .next t) (hok : t.err = .ok) :
    lengthVerdict s.cfg s.latch = .ok ∧
      ∃ payload, Memory.readRange s.pay 0 (payloadCount s) = .ok payload ∧ t = encoded s payload := by
  rcases execEncode_cases s with ⟨hv, he⟩ | ⟨hv, payload, hp, he⟩ | ⟨-, j, -, he⟩ <;> rw [he] at h
  · cases h
    exact absurd hok hv
  · cases h
    exact ⟨hv, payload, hp, rfl⟩
  · cases h

/-- Settles O39: the range is inside FRM, since the frame fits, and reads as the covered bytes and their checksum. -/
theorem freshFrameChecksToZero : Obligations.FreshFrameChecksToZero := by
  intro s t u h hok hfrm hcfg hstart hend
  obtain ⟨hv, payload, hp, rfl⟩ := execEncode_ok h hok
  have hlen : payload.length = payloadCount s := (Memory.readRange_eq_ok.1 hp).1
  have hvalid : validRange u.cfg u.latch := by
    obtain ⟨h0, hcap⟩ := lengthVerdict_eq_ok.1 hv
    have hle := effectiveCapacity_le s.cfg s.latch
    have hucfg : u.cfg = s.cfg := hcfg.trans (complete_cfg _ _)
    rw [validRange, hstart, hend, hucfg, payloadCount]
    omega
  have hbytes : coveredBytes u =
      .ok (s.cfg.rom.toList ++ payload ++ [checksum (s.cfg.rom.toList ++ payload)]) := by
    rw [coveredBytes, hstart, hend, hfrm, show 18 + payloadCount s - 3 = 15 + payload.length by omega]
    exact readRange_wholeFrame _ _ _ _
  exact ⟨_, execChecksum_of_bytes hvalid hbytes, completedWith_complete _ _, checksum_append_checksum _⟩

end Sys2Proof.Machine
end

section
/-!
PROOF. The sub-blocks of the frame encoder (41_frame_encoder.md): the length calculator's field (R85), the multiplexer's
select (R89), and that the bytes of ENCODE's frame are the multiplexer's bytes (R90).
-/

namespace Sys2Proof.Machine

/-! ### The length field -/

/-- A frame that passes both checks is no longer than the largest frame RAM (41_frame_encoder.md R83, R84). -/
theorem frameLength_le {c : Config} {l : Latch} (hv : lengthVerdict c l = .ok) :
    0 ≤ payloadLength l ∧ 18 + payloadLength l ≤ 65536 := by
  obtain ⟨h0, hcap⟩ := lengthVerdict_eq_ok.1 hv
  have hle := effectiveCapacity_le c l
  have hsize := frameRamSize_le c
  omega

/-- Settles O32: the frame's length is at most 65536, so four less fits 16 bits. -/
theorem lengthFieldNeverTruncates : Obligations.LengthFieldNeverTruncates := by
  intro s hvalid lc
  have hv : lengthVerdict s.cfg s.latch = .ok := lengthVerdict_eq_ok.2 hvalid
  obtain ⟨h0, hmax⟩ := frameLength_le hv
  have hlen : lc.length.toNat = 14 + payloadCount s := lengthField_toNat h0 hmax
  have hcount : (payloadCount s : Int) = payloadLength s.latch := Int.toNat_of_nonneg h0
  have hframe : lc.frameLength = 18 + payloadLength s.latch := rfl
  exact ⟨hv, hframe, hlen, by omega, by omega, by omega, lenHi_lenLo lc.length⟩

/-! ### The multiplexer's select -/

/-- The rows of the select function; their offsets exclude one another (41_frame_encoder.md R89). -/
theorem sel_cases (n k : Nat) :
    (sel n k = some .rom ∧ (k = 0 ∨ 3 ≤ k ∧ k ≤ 16)) ∨ (sel n k = some .lenHi ∧ k = 1) ∨
    (sel n k = some .lenLo ∧ k = 2) ∨ (sel n k = some .pay ∧ 17 ≤ k ∧ k ≤ 16 + n) ∨
    (sel n k = some .chk ∧ k = 17 + n) ∨ (sel n k = none ∧ 17 + n < k) := by
  fun_cases sel n k <;> simp <;> omega

/-- Which offsets select something, and which select each source. -/
theorem sel_iff (n k : Nat) :
    ((sel n k).isSome ↔ k ≤ 17 + n) ∧
    (sel n k = some .rom ↔ k = 0 ∨ 3 ≤ k ∧ k ≤ 16) ∧
    (sel n k = some .lenHi ↔ k = 1) ∧
    (sel n k = some .lenLo ↔ k = 2) ∧
    (sel n k = some .pay ↔ 17 ≤ k ∧ k ≤ 16 + n) ∧
    (sel n k = some .chk ↔ k = 17 + n) := by
  rcases sel_cases n k with ⟨h, hk⟩ | ⟨h, hk⟩ | ⟨h, hk⟩ | ⟨h, hk⟩ | ⟨h, hk⟩ | ⟨h, hk⟩ <;> rw [h] <;> simp <;> omega

theorem selCode_lt (x : Sel) : (Sel.code x).toNat < 5 := by cases x <;> decide

/-- Settles O33: the rows exclude one another and cover the offsets up to 17 + P, and there are five codes. -/
theorem multiplexerSelectsOneSourcePerOffset : Obligations.MultiplexerSelectsOneSourcePerOffset :=
  ⟨sel_iff, rfl, rfl, rfl, rfl, rfl, selCode_lt⟩

/-! ### The multiplexer's byte -/

section
variable (c : Config) (lc : LengthOut) (pay : Memory) (chk : Byte)

@[simp] theorem frameByte_delimiter : frameByte c lc pay chk 0 = some startDelimiter := rfl

@[simp] theorem frameByte_lenHi : frameByte c lc pay chk 1 = some lc.hi := rfl

@[simp] theorem frameByte_lenLo : frameByte c lc pay chk 2 = some lc.lo := rfl

theorem frameByte_rom {j : Nat} (hj : j < 14) : frameByte c lc pay chk (3 + j) = some c.rom[j] := by
  obtain ⟨-, hrom, -⟩ := sel_iff lc.p.toNat (3 + j)
  rw [frameByte, hrom.2 (by omega)]
  simp only [romByte_of_mem c (show 3 ≤ 3 + j by omega) (by omega), Nat.add_sub_cancel_left]

theorem frameByte_pay {j : Nat} (hj : j < lc.p.toNat) :
    frameByte c lc pay chk (17 + j) = Memory.read pay j := by
  obtain ⟨-, -, -, -, hpay, -⟩ := sel_iff lc.p.toNat (17 + j)
  rw [frameByte, hpay.2 (by omega)]
  simp only [Nat.add_sub_cancel_left]

theorem frameByte_chk : frameByte c lc pay chk (17 + lc.p.toNat) = some chk := by
  obtain ⟨-, -, -, -, -, hchk⟩ := sel_iff lc.p.toNat (17 + lc.p.toNat)
  rw [frameByte, hchk.2 rfl]

/-- Before the checksum byte the multiplexer gives the frame body, whatever checksum byte it is offered. -/
theorem frameByte_body {payload : List Byte} (hp : Memory.readRange pay 0 lc.p.toNat = .ok payload) {k : Nat}
    (hk : k < 17 + lc.p.toNat) : frameByte c lc pay chk k = (frameBody c lc payload)[k]? := by
  obtain ⟨hlen, hread⟩ := Memory.readRange_eq_ok.1 hp
  match k with
  | 0 => rfl
  | 1 => rfl
  | 2 => rfl
  | k + 3 =>
    have hbody : (frameBody c lc payload)[k + 3]? = (c.rom.toList ++ payload)[k]? := rfl
    rw [hbody]
    by_cases hrom : k < 14
    · rw [Nat.add_comm, frameByte_rom c lc pay chk hrom, List.getElem?_append_left (by simpa using hrom)]
      simp [hrom]
    · obtain ⟨j, rfl⟩ := Nat.exists_eq_add_of_le (Nat.le_of_not_lt hrom)
      have hj : j < lc.p.toNat := by omega
      rw [show 14 + j + 3 = 17 + j by omega, frameByte_pay c lc pay chk hj, List.getElem?_append_right (by simp)]
      simpa using hread j hj

/-- The frame ENCODE writes is the multiplexer's, offered that frame's checksum (41_frame_encoder.md R90). -/
theorem frameByte_wholeFrame {payload : List Byte} (hp : Memory.readRange pay 0 lc.p.toNat = .ok payload) {k : Nat}
    (hk : k < 18 + lc.p.toNat) :
    frameByte c lc pay (frameChecksum c payload) k = (wholeFrame c lc payload)[k]? := by
  have hlen : (frameBody c lc payload).length = 17 + lc.p.toNat := by
    rw [frameBody_length, (Memory.readRange_eq_ok.1 hp).1]
  by_cases hlast : k < 17 + lc.p.toNat
  · rw [frameByte_body c lc pay _ hp hlast, wholeFrame, List.getElem?_append_left (by omega)]
  · obtain rfl : k = 17 + lc.p.toNat := by omega
    rw [frameByte_chk, wholeFrame, ← hlen, List.getElem?_concat_length]

end

/-! ### The bytes of the frame ENCODE wrote -/

section
variable {s : State} {payload : List Byte} (hp : Memory.readRange s.pay 0 (payloadCount s) = .ok payload)

include hp

theorem read_encoded {k : Nat} (hk : k < 18 + payloadCount s) :
    Memory.read (encoded s payload).frm k =
      (wholeFrame s.cfg (lengthCalculator s.cfg s.latch) payload)[k]? := by
  have hlen : payload.length = payloadCount s := (Memory.readRange_eq_ok.1 hp).1
  simp only [encoded, complete_frm, setResults_frm]
  rw [Memory.read_writeAll, wholeFrame_length, if_pos (by omega), Nat.sub_zero]

theorem read_encoded_eq_frameByte {k : Nat} (hk : k < 18 + payloadCount s) :
    Memory.read (encoded s payload).frm k =
      frameByte s.cfg (lengthCalculator s.cfg s.latch) s.pay (encoded s payload).resultCksum k :=
  (read_encoded hp hk).trans (frameByte_wholeFrame _ _ _ hp hk).symm

theorem written_encoded {k : Nat} (hk : k < 18 + payloadCount s) : Memory.Written (encoded s payload).frm k := by
  have hlen : payload.length = payloadCount s := (Memory.readRange_eq_ok.1 hp).1
  rw [Memory.Written, read_encoded hp hk, List.getElem?_eq_getElem (by rw [wholeFrame_length]; omega), Option.isSome_some]

end

/-- Settles O34: the frame was written whole, and its bytes are the multiplexer's. -/
theorem everyFrameByteIsTheMultiplexersByte : Obligations.EveryFrameByteIsTheMultiplexersByte := by
  intro s t h hok k hk
  obtain ⟨-, payload, hp, rfl⟩ := execEncode_ok h hok
  have hread := read_encoded_eq_frameByte hp hk
  exact ⟨hread ▸ written_encoded hp hk, hread⟩

end Sys2Proof.Machine
end

section
/-!
PROOF. The ENCODE command (41_frame_encoder.md): its checks and what an error completion leaves (R81, R84, R97), the frame
of a valid ENCODE (R94), its checksum byte (R91), and what its results depend on (R95).
-/

namespace Sys2Proof.Machine

/-! ### Error completions -/

/-- What an error completion leaves: the code, results 0, and everything else as it was (60_exceptions.md R108, R109). -/
theorem complete_of_error (s : State) {code : ErrCode} (hc : code ≠ .ok) :
    CompletedWith (complete s code) code ∧ (complete s code).resultLen = 0 ∧ (complete s code).resultCksum = 0 ∧
      (complete s code).frm = s.frm ∧ SameInputs s (complete s code) :=
  ⟨completedWith_complete s code, by rw [complete_resultLen, if_neg hc], by rw [complete_resultCksum, if_neg hc],
    complete_frm s code, sameInputs_complete s code⟩

/-- Settles O3: the decoder rejects the word, and the engine completes it with the error. -/
theorem illegalWordCompletesIllegalCommand : Obligations.IllegalWordCompletesIllegalCommand := by
  intro s h1 h2
  have hd := decode_of_illegal h1 h2
  obtain ⟨hc, hrest⟩ := complete_of_error s (code := .illegalCommand) (by decide)
  exact ⟨hd, complete s .illegalCommand, by rw [engineStep, hd, execIllegal], hc,
    regRead_status_of_flags hc.busy hc.done hc.err, hrest⟩

/-! ### The checks -/

/-- An ENCODE that fails a check completes with the verdict's code, whether or not its payload is written. -/
theorem execEncode_of_verdict {s : State} {code : ErrCode} (hv : lengthVerdict s.cfg s.latch = code) (hc : code ≠ .ok) :
    exec .encode s = .next (complete s code) := by
  subst hv
  exact execEncode_of_invalid s hc

/-- Settles O25: each failed check gives its own verdict, the sign first, and a verdict OK never completes with an error. -/
theorem encodeChecksLengthThenCapacity : Obligations.EncodeChecksLengthThenCapacity := by
  refine fun s => ⟨fun hneg => ?_, fun h0 hlarge => ?_, fun h0 hfits t h => ?_⟩
  · exact ⟨_, execEncode_of_verdict (lengthVerdict_of_neg hneg) (by decide), complete_of_error s (by decide)⟩
  · exact ⟨_, execEncode_of_verdict (lengthVerdict_of_large h0 hlarge) (by decide), complete_of_error s (by decide)⟩
  · have hv : lengthVerdict s.cfg s.latch = .ok := lengthVerdict_eq_ok.2 ⟨h0, hfits⟩
    rw [exec] at h
    rcases execEncode_cases s with ⟨hn, -⟩ | ⟨-, payload, -, he⟩ | ⟨-, j, -, he⟩
    · exact absurd hv hn
    · cases he.symm.trans h
      rfl
    · cases he.symm.trans h

/-- Settles O27: an error writes no byte, and a frame that passes the checks ends at or below the capacity. -/
theorem encodeNeverWritesPastTheCapacity : Obligations.EncodeNeverWritesPastTheCapacity := by
  refine fun s => ⟨fun t h k hk => ?_, fun h0 hlarge => ?_⟩
  · rw [exec] at h
    rcases execEncode_cases s with ⟨-, he⟩ | ⟨hv, payload, hp, he⟩ | ⟨-, j, -, he⟩ <;> cases he.symm.trans h
    · rw [complete_frm]
    · obtain ⟨h0, hcap⟩ := lengthVerdict_eq_ok.1 hv
      exact read_encoded_of_past hp (by rw [payloadCount]; omega)
  · exact ⟨_, execEncode_of_verdict (lengthVerdict_of_large h0 hlarge) (by decide), rfl⟩

/-! ### The frame -/

theorem exists_payload {s : State} (hw : PayloadWritten s) :
    ∃ payload, Memory.readRange s.pay 0 (payloadCount s) = .ok payload :=
  Memory.exists_readRange fun k _ hk => hw k (by omega)

theorem sameInputs_encoded (s : State) (payload : List Byte) : SameInputs s (encoded s payload) := by
  constructor <;> rfl

section
variable {s : State} {payload : List Byte} (hp : Memory.readRange s.pay 0 (payloadCount s) = .ok payload)
include hp

/-- The checksum byte is the frame's last (41_frame_encoder.md R92). -/
theorem read_encoded_last : Memory.read (encoded s payload).frm (17 + payloadCount s) =
    some (encoded s payload).resultCksum :=
  (read_encoded_eq_frameByte hp (by omega)).trans (frameByte_chk _ _ _ _)

/-- Past the length field the frame reads as the constants, the payload and their checksum. -/
theorem readRange_encoded : Memory.readRange (encoded s payload).frm 3 (15 + payloadCount s) =
    .ok (s.cfg.rom.toList ++ payload ++ [checksum (s.cfg.rom.toList ++ payload)]) := by
  rw [← (Memory.readRange_eq_ok.1 hp).1]
  exact readRange_wholeFrame _ _ _ _

/-- The frame a valid ENCODE leaves: each byte is the multiplexer's, and the checksum byte complements the sum. -/
theorem frameHolds_encoded (hv : lengthVerdict s.cfg s.latch = .ok) :
    FrameHolds s.cfg s.pay (encoded s payload).frm (payloadCount s) where
  written _ hk := written_encoded hp hk
  length := by
    obtain ⟨h0, hmax⟩ := frameLength_le hv
    have hhi : Memory.val (encoded s payload).frm 1 = (lengthCalculator s.cfg s.latch).hi.toNat := by
      rw [Memory.val, read_encoded_eq_frameByte hp (by omega), frameByte_lenHi, Option.getD_some]
    have hlo : Memory.val (encoded s payload).frm 2 = (lengthCalculator s.cfg s.latch).lo.toNat := by
      rw [Memory.val, read_encoded_eq_frameByte hp (by omega), frameByte_lenLo, Option.getD_some]
    rw [hhi, hlo, lengthCalculator_hi, lengthCalculator_lo, lenHi_lenLo, lengthField_toNat h0 hmax, payloadCount]
    omega
  delimiter := read_encoded_eq_frameByte hp (by omega)
  constants j := (read_encoded_eq_frameByte hp (by omega)).trans (frameByte_rom _ _ _ _ j.isLt)
  payload j hj := (read_encoded_eq_frameByte hp (by omega)).trans (frameByte_pay _ _ _ _ hj)
  covered := by
    have hsum := sum_val_of_readRange (readRange_encoded hp)
    rw [show 3 + (15 + payloadCount s) = 17 + payloadCount s + 1 by omega, Finset.Ico_add_one_right_eq_Icc] at hsum
    rw [hsum]
    exact sum8_append_checksum _

end

/-- Settles O24: the payload reads as bytes, and their frame is what ENCODE leaves. -/
theorem encodeWritesTheFrame : Obligations.EncodeWritesTheFrame := by
  intro s hvalid hw
  have hv : lengthVerdict s.cfg s.latch = .ok := lengthVerdict_eq_ok.2 hvalid
  obtain ⟨payload, hp⟩ := exists_payload hw
  exact ⟨_, execEncode_of_payload s hv hp, completedWith_complete _ _, (frameLength_toNat hv).1,
    frameHolds_encoded hp hv, read_encoded_last hp, fun k hk => read_encoded_of_past hp hk, sameInputs_encoded s payload⟩

/-! ### The checksum byte -/

/-- The first bytes of a range read as the first bytes of its list. -/
theorem Memory.readRange_of_append {m : Memory} {i n : Nat} {bs bs' : List Byte}
    (h : Memory.readRange m i n = .ok (bs ++ bs')) : Memory.readRange m i bs.length = .ok bs := by
  obtain ⟨hlen, hread⟩ := Memory.readRange_eq_ok.1 h
  rw [List.length_append] at hlen
  refine Memory.readRange_eq_ok.2 ⟨rfl, fun k hk => ?_⟩
  rw [hread k (by omega), List.getElem?_append_left hk]

theorem byteSum_eq_sum (bs : List Byte) : byteSum bs = (bs.map BitVec.toNat).sum := by
  induction bs with
  | nil => rfl
  | cons b bs ih => rw [byteSum_cons, ih, List.map_cons, List.sum_cons]

theorem byteSum_rom (c : Config) : byteSum c.rom.toList = ∑ j : Fin 14, (c.rom[j]).toNat := by
  have h : c.rom.toList = List.ofFn fun j : Fin 14 => c.rom[j] :=
    List.ext_getElem (by simp) fun i _ _ => by rw [List.getElem_ofFn, Vector.getElem_toList]; rfl
  rw [byteSum_eq_sum, h, List.map_ofFn, List.sum_ofFn]
  rfl

section
variable {s : State} {payload : List Byte} (hp : Memory.readRange s.pay 0 (payloadCount s) = .ok payload)
include hp

/-- The covered bytes of the frame, as written (41_frame_encoder.md R91). -/
theorem sum_val_covered : ∑ k ∈ Finset.Icc 3 (16 + payloadCount s), Memory.val (encoded s payload).frm k =
    byteSum (s.cfg.rom.toList ++ payload) := by
  have hsum := sum_val_of_readRange (Memory.readRange_of_append (readRange_encoded hp))
  rw [List.length_append, Vector.length_toList, (Memory.readRange_eq_ok.1 hp).1,
    show 3 + (14 + payloadCount s) = 16 + payloadCount s + 1 by omega, Finset.Ico_add_one_right_eq_Icc] at hsum
  exact hsum

theorem sum_val_payload : ∑ j ∈ Finset.range (payloadCount s), Memory.val s.pay j = byteSum payload := by
  rw [← sum_val_of_readRange hp, Nat.zero_add, Finset.range_eq_Ico]

end

/-- With no payload the default ROM's sum leaves 0xF3 (41_frame_encoder.md R91). -/
theorem frameChecksum_default {c : Config} (hrom : c.rom = Config.default.rom) : frameChecksum c [] = 0xF3 := by
  rw [frameChecksum, hrom, List.append_nil]
  exact checksum_eq_iff.2 (by decide)

/-- Settles O29: the covered bytes are the constants and the payload, whose sum the checksum byte complements. -/
theorem encodeChecksumCoversConstantsAndPayload : Obligations.EncodeChecksumCoversConstantsAndPayload := by
  intro s t h hok
  obtain ⟨-, payload, hp, rfl⟩ := execEncode_ok h hok
  have hval : (encoded s payload).resultCksum.toNat = 0xFF - byteSum (s.cfg.rom.toList ++ payload) % 256 :=
    checksum_toNat _
  refine ⟨?_, ?_, fun hrom hzero => ?_⟩
  · rw [sum_val_covered hp, hval]
  · rw [sum_val_payload hp, ← byteSum_rom, ← byteSum_append, hval]
  · have hnil : payload = [] := List.length_eq_zero_iff.1 (by
      rw [(Memory.readRange_eq_ok.1 hp).1, payloadCount, hzero, Int.toNat_zero])
    rw [hnil]
    exact frameChecksum_default hrom

/-! ### What ENCODE depends on -/

theorem payloadLength_congr {l l' : Latch} (h : l'.plen = l.plen) : payloadLength l' = payloadLength l :=
  congrArg BitVec.toInt h

theorem lengthVerdict_congr {c c' : Config} {l l' : Latch} (hl : payloadLength l' = payloadLength l)
    (hcap : effectiveCapacity c' l' = effectiveCapacity c l) : lengthVerdict c' l' = lengthVerdict c l := by
  rw [lengthVerdict, lengthVerdict, hl, hcap]

theorem frameChecksum_congr {c c' : Config} (hrom : c'.rom = c.rom) (payload : List Byte) :
    frameChecksum c' payload = frameChecksum c payload := by
  rw [frameChecksum, frameChecksum, hrom]

theorem wholeFrame_congr {c c' : Config} {l l' : Latch} (hrom : c'.rom = c.rom)
    (hl : payloadLength l' = payloadLength l) (payload : List Byte) :
    wholeFrame c' (lengthCalculator c' l') payload = wholeFrame c (lengthCalculator c l) payload := by
  simp only [wholeFrame, frameBody, frameChecksum_congr hrom, hrom, lengthCalculator_hi, lengthCalculator_lo, hl]

/-- Settles O30: the verdict and the payload read are the same, and they and the ROM fix the frame and the results. -/
theorem encodeIsDeterministicInItsInputs : Obligations.EncodeIsDeterministicInItsInputs := by
  intro s s' t hplen hcap hrom hpay h
  have hl : payloadLength s'.latch = payloadLength s.latch := payloadLength_congr hplen
  have hv' : lengthVerdict s'.cfg s'.latch = lengthVerdict s.cfg s.latch := lengthVerdict_congr hl hcap
  have hcount : payloadCount s' = payloadCount s := congrArg Int.toNat hl
  have hread : Memory.readRange s'.pay 0 (payloadCount s') = Memory.readRange s.pay 0 (payloadCount s) := by
    rw [hcount]
    exact Memory.readRange_congr fun j _ hj => hpay j (by omega)
  rw [exec] at h
  rcases execEncode_cases s with ⟨hv, he⟩ | ⟨hv, payload, hp, he⟩ | ⟨-, j, -, he⟩ <;> cases he.symm.trans h
  · obtain ⟨-, hlen, hck, -⟩ := complete_of_error s hv
    obtain ⟨-, hlen', hck', -⟩ := complete_of_error s' hv
    exact ⟨_, execEncode_of_verdict hv' hv, hlen'.trans hlen.symm, hck'.trans hck.symm, rfl, fun hok => absurd hok hv⟩
  · have hp' := hread.trans hp
    refine ⟨_, execEncode_of_payload s' (hv'.trans hv) hp', congrArg (fun p => BitVec.ofInt 32 (18 + p)) hl,
      frameChecksum_congr hrom payload, rfl, fun _ k hk => ?_⟩
    rw [read_encoded hp' (by omega), read_encoded hp hk, wholeFrame_congr hrom hl]

end Sys2Proof.Machine
end

section
/-!
PROOF. The single pass (41_frame_encoder.md R96) is ENCODE: offset by offset it writes the frame body while its accumulator
adds the covered bytes, so the last offset is given the frame's checksum; and it fails where ENCODE's payload read does.
-/

namespace Sys2Proof.Machine

/-- The accumulator after the frame bytes `done`: those from offset 3 on are covered (40_checksum.md R74). -/
def accAfter (done : List Byte) : Byte := (done.drop 3).foldl accAdd 0

theorem accAfter_snoc (done : List Byte) (b : Byte) :
    accAfter (done ++ [b]) = if 3 ≤ done.length then accAdd (accAfter done) b else accAfter done := by
  by_cases h3 : 3 ≤ done.length
  · rw [if_pos h3, accAfter, accAfter, List.drop_append_of_le_length h3, List.foldl_append]
    rfl
  · rw [if_neg h3, accAfter, accAfter, List.drop_eq_nil_of_le (by simp; omega), List.drop_eq_nil_of_le (by omega)]

/-- After the frame body the accumulator's complement is the frame's checksum (40_checksum.md R74). -/
theorem not_accAfter_frameBody (c : Config) (lc : LengthOut) (payload : List Byte) :
    ~~~accAfter (frameBody c lc payload) = frameChecksum c payload :=
  streamingAccumulatorRealisesChecksum.1 (c.rom.toList ++ payload)

section
variable {c : Config} {lc : LengthOut} {pay : Memory}

/-- One offset of the pass (41_frame_encoder.md R96). -/
theorem passFrom_succ {k : Nat} {acc b : Byte} (hb : frameByte c lc pay (~~~acc) k = some b) (steps : Nat) (m : Memory) :
    passFrom c lc pay (steps + 1) k m acc =
      passFrom c lc pay steps (k + 1) (Memory.write m k b)
        (if 3 ≤ k ∧ k ≤ 16 + lc.p.toNat then accAdd acc b else acc) := by
  rw [passFrom, hb]

/-- From any offset of the frame body on, the pass writes the rest of the body and then the checksum byte. -/
theorem passFrom_body {payload : List Byte} (hp : Memory.readRange pay 0 lc.p.toNat = .ok payload)
    {done rest : List Byte} (h : frameBody c lc payload = done ++ rest) (m : Memory) :
    passFrom c lc pay (rest.length + 1) done.length m (accAfter done) =
      some (Memory.writeAll m done.length (rest ++ [frameChecksum c payload]), frameChecksum c payload) := by
  have hlen : done.length + rest.length = 17 + lc.p.toNat := by
    rw [← List.length_append, ← h, frameBody_length, (Memory.readRange_eq_ok.1 hp).1]
  induction rest generalizing done m with
  | nil =>
    rw [List.append_nil] at h
    rw [List.length_nil, Nat.add_zero] at hlen
    have hchk := frameByte_chk c lc pay (~~~accAfter done)
    rw [hlen, List.length_nil, passFrom_succ hchk, if_neg (by omega), passFrom, ← h, not_accAfter_frameBody]
    rfl
  | cons b rest ih =>
    rw [List.length_cons] at hlen
    have hbyte : frameByte c lc pay (~~~accAfter done) done.length = some b := by
      rw [frameByte_body c lc pay _ hp (by omega), h]
      simp
    have hacc : accAfter (done ++ [b]) =
        if 3 ≤ done.length ∧ done.length ≤ 16 + lc.p.toNat then accAdd (accAfter done) b else accAfter done := by
      rw [accAfter_snoc]
      simp only [show done.length ≤ 16 + lc.p.toNat by omega, and_true]
    have hrest := ih (done := done ++ [b]) (by rw [h, List.append_cons]) (Memory.write m done.length b)
      (by rw [List.length_append, List.length_singleton]; omega)
    rw [List.length_append, List.length_singleton] at hrest
    rw [List.length_cons, passFrom_succ hbyte, ← hacc, hrest]
    rfl

/-- With a readable payload the pass writes the whole frame. -/
theorem singlePass_of_payload (frm : Memory) {payload : List Byte}
    (hp : Memory.readRange pay 0 lc.p.toNat = .ok payload) :
    singlePass c lc pay frm =
      some (Memory.writeAll frm 0 (wholeFrame c lc payload), frameChecksum c payload) := by
  have h := passFrom_body (c := c) hp (done := []) (List.nil_append _).symm frm
  rw [frameBody_length, (Memory.readRange_eq_ok.1 hp).1] at h
  rw [singlePass, show 18 + lc.p.toNat = 17 + lc.p.toNat + 1 by omega]
  exact h

/-- The pass fails if one of its offsets has no multiplexer byte. -/
theorem passFrom_eq_none {steps k i : Nat} (hk : k ≤ i) (hi : i < k + steps)
    (hnone : ∀ chk, frameByte c lc pay chk i = none) (m : Memory) (acc : Byte) :
    passFrom c lc pay steps k m acc = none := by
  induction steps generalizing k m acc with
  | zero => omega
  | succ steps ih =>
    rw [passFrom]
    cases hb : frameByte c lc pay (~~~acc) k with
    | none => rfl
    | some b =>
      have hne : k ≠ i := fun heq => by rw [heq, hnone] at hb; cases hb
      exact ih (by omega) (by omega) _ _

/-- At a payload byte that holds no value the pass fails. -/
theorem singlePass_of_unwritten (frm : Memory) {j : Nat} (h : Memory.readRange pay 0 lc.p.toNat = .error j) :
    singlePass c lc pay frm = none := by
  obtain ⟨-, hj, hnone⟩ := Memory.readRange_eq_error h
  refine passFrom_eq_none (i := 17 + j) (by omega) (by omega) (fun chk => ?_) frm 0
  rw [frameByte_pay c lc pay chk (by omega), hnone]

end

/-- Settles O35: the payload reads as bytes, and both write its frame, or it does not, and both stop. -/
theorem singlePassRealisesEncode : Obligations.SinglePassRealisesEncode := by
  intro s hvalid
  have hv : lengthVerdict s.cfg s.latch = .ok := lengthVerdict_eq_ok.2 hvalid
  rw [exec]
  cases hp : Memory.readRange s.pay 0 (payloadCount s) with
  | ok payload =>
    rw [execEncode_of_payload s hv hp, singlePass_of_payload s.frm hp]
    refine ⟨fun frm chk => ⟨?_, ?_⟩, nofun, nofun⟩
    · rintro ⟨⟩
      exact ⟨_, rfl, rfl, rfl⟩
    · rintro ⟨_, ⟨⟩, rfl, rfl⟩
      rfl
  | error j =>
    rw [execEncode_of_unwritten s hv hp, singlePass_of_unwritten s.frm hp]
    exact ⟨fun _ _ => ⟨nofun, nofun⟩, fun _ => ⟨_, rfl⟩, fun _ => rfl⟩

end Sys2Proof.Machine
end

section
/-!
PROOF. Completion (60_exceptions.md): what `complete` records (R108), that an error completion is precise (R109), the
one code of each command (R106), that ENCODE is all or nothing (R110), and that an idle block keeps its completion (R112).
-/

namespace Sys2Proof.Machine

/-! ### What a completion records -/

/-- Settles O18: a completion is the flags, over the zeroed results on an error; it leaves the block idle, and an idle
block gives the engine no turn. -/
theorem completionRecordsOnlyTheCode : Obligations.CompletionRecordsOnlyTheCode := by
  refine fun s code => ⟨engineTurn_eq_false_of_idle (complete_busy s code), ?_, fun hc => complete_error s hc⟩
  rintro rfl
  exact complete_ok s

/-- Settles O20: of an engine step's next states only those of `complete` with an error code hold one. -/
theorem errorCompletionsArePrecise : Obligations.ErrorCompletionsArePrecise := by
  intro s t h herr
  rcases engineStep_next h with ⟨code, hc, rfl⟩ | ⟨-, -, payload, -, rfl⟩ | ⟨-, -, bytes, -, rfl⟩
  · obtain ⟨hcompleted, hlen, hck, hfrm, hinputs⟩ := complete_of_error s hc
    exact ⟨hinputs, hfrm, hcompleted.busy, hcompleted.done, hlen, hck⟩
  · exact absurd rfl herr
  · exact absurd rfl herr

/-! ### One code per command -/

/-- ENCODE's code is the length calculator's verdict (41_frame_encoder.md R84). -/
theorem execEncode_err {s t : State} (h : execEncode s = .next t) : t.err = lengthVerdict s.cfg s.latch := by
  rcases execEncode_cases s with ⟨-, he⟩ | ⟨hv, payload, -, he⟩ | ⟨-, j, -, he⟩ <;> cases he.symm.trans h
  · rfl
  · exact hv.symm

/-- CHECKSUM's code is OK or its one error (40_checksum.md R75). -/
theorem execChecksum_err {s t : State} (h : execChecksum s = .next t) : t.err = .ok ∨ t.err = .invalidRange := by
  rcases execChecksum_cases s with ⟨-, he⟩ | ⟨-, bytes, -, he⟩ | ⟨-, i, -, he⟩ <;> cases he.symm.trans h
  · exact .inr rfl
  · exact .inl rfl

theorem engineStep_of_encode {s : State} (ho : s.latch.op = 0x00000001#32) : engineStep s = execEncode s := by
  rw [engineStep, ho]; rfl

theorem engineStep_of_checksum {s : State} (ho : s.latch.op = 0x00000002#32) : engineStep s = execChecksum s := by
  rw [engineStep, ho]; rfl

/-- Settles O21: an illegal word is completed before any operand is read, and an ENCODE's verdict
checks the sign first. -/
theorem errorPriorityWithinACommand : Obligations.ErrorPriorityWithinACommand := by
  refine fun s t h => ⟨fun h1 h2 => ?_, fun ho hneg => ?_, fun ho h0 hlarge => ?_, fun ho => ?_⟩
  · obtain ⟨-, u, hu, hcompleted, -⟩ := illegalWordCompletesIllegalCommand s h1 h2
    cases hu.symm.trans h
    exact hcompleted.err
  · rw [engineStep_of_encode ho] at h
    exact (execEncode_err h).trans (lengthVerdict_of_neg hneg)
  · rw [engineStep_of_encode ho] at h
    exact (execEncode_err h).trans (lengthVerdict_of_large h0 hlarge)
  · rw [engineStep_of_checksum ho] at h
    exact execChecksum_err h

/-! ### ENCODE is all or nothing -/

/-- Settles O26: an ENCODE that fails a check leaves FRM as it was, and one that passes both leaves its whole frame. -/
theorem encodeIsAllOrNothing : Obligations.EncodeIsAllOrNothing := by
  intro s t h
  rw [exec] at h
  rcases execEncode_cases s with ⟨hv, he⟩ | ⟨hv, payload, hp, he⟩ | ⟨-, j, -, he⟩ <;> cases he.symm.trans h
  · exact .inr ⟨rfl, rfl, hv, complete_frm s _⟩
  · exact .inl ⟨completedWith_complete _ _, frameHolds_encoded hp hv⟩

/-! ### An idle block keeps its completion -/

/-- A register is answered at its own offset alone (10_state.md R17). -/
theorem eq_offset_of_regAt {o : Nat} {r : Reg} (h : regAt o = some r) : o = r.offset.toNat := by
  unfold regAt at h
  split at h <;> cases h <;> rfl

theorem eq_offset_of_target {c : Config} {n : Nat} {off : Word} {r : Reg} (h : target c n off = some (.reg r)) :
    n = 4 ∧ off = r.offset := by
  unfold target at h
  split at h
  · obtain ⟨r', hr, hrr⟩ := Option.map_eq_some_iff.1 h
    cases hrr
    exact ⟨‹_›, BitVec.eq_of_toNat_eq (eq_offset_of_regAt hr)⟩
  · split at h
    · split at h
      · cases h
      · obtain ⟨i, -, hi⟩ := Option.map_eq_some_iff.1 h
        cases hi
    · cases h

/-- The two states hold the same STATUS. -/
def SameFlags (s t : State) : Prop := t.busy = s.busy ∧ t.done = s.done ∧ t.err = s.err

theorem sameFlags_of_sameRegisters {s t : State} (h : SameRegisters s t) : SameFlags s t := ⟨h.busy, h.done, h.err⟩

/-- Of the register writes only one to CMD touches STATUS (20_memory.md R39). -/
theorem sameFlags_regWrite (s : State) {r : Reg} (v : Word) (hr : r ≠ .cmd) : SameFlags s (regWrite s r v) := by
  cases r with
  | cmd => exact absurd rfl hr
  | _ => exact ⟨rfl, rfl, rfl⟩

/-- Of the transactions only a CMD write touches STATUS. -/
theorem cmdWrite_or_sameFlags {s t : State} {a : Access} (h : hostAccess s a = .next t) :
    (∃ v, a = .write 4 0x00 v) ∨ SameFlags s t := by
  cases a with
  | read n off => exact .inr (sameFlags_of_sameRegisters (readsHaveNoSideEffect s t n off h).1)
  | write n off v =>
    simp only [hostAccess] at h
    split at h
    · cases h
    · rename_i r hr
      cases h
      obtain ⟨rfl, rfl⟩ := eq_offset_of_target hr
      by_cases hcmd : r = .cmd
      · subst hcmd
        exact .inl ⟨v, rfl⟩
      · exact .inr (sameFlags_regWrite s v hcmd)
    · rename_i m i _
      unfold hostRamWrite at h
      split at h
      · cases h
      · cases h
        exact .inr (sameFlags_of_sameRegisters (sameRegisters_ramWrite s m i _ _))

/-- A poll of an idle block is heard, and the loop ends (30_encoding.md R65). -/
theorem hostPoll_of_idle {s : State} (h : s.busy = false) : hostPoll s = hear s (.word (statusWord s)) := by
  rw [hostPoll_eq, h]; rfl

/-- Settles O23: an idle step is a host move, and of the host's moves but a reset only a CMD write touches STATUS, by an
issue, and none the results. -/
theorem completionStaysUntilIssueOrReset : Obligations.CompletionStaysUntilIssueOrReset := by
  intro s t hb h hreset
  rw [step_of_idle hb] at h
  rcases hostMove_next h with ⟨-, rfl⟩ | ⟨a, rest, hh, ha⟩ | ⟨rest, -, rfl⟩ | ⟨rest, hh, -⟩
  · exact ⟨⟨rfl, rfl⟩, .inl ⟨hb, rfl, rfl⟩⟩
  · have hkeep := sameResults_hostAccess ha
    refine ⟨hkeep, ?_⟩
    rcases cmdWrite_or_sameFlags ha with ⟨v, rfl⟩ | ⟨hbusy, hdone, herr⟩
    · rw [hostAccess_cmd_of_idle v (by exact hb)] at ha
      cases ha
      exact .inr ⟨v, by rw [hh]; rfl, rfl, rfl, rfl⟩
    · exact .inl ⟨hbusy.trans hb, hdone, herr⟩
  · rw [hostPoll_of_idle (by exact hb)]
    exact ⟨⟨rfl, rfl⟩, .inl ⟨hb, rfl, rfl⟩⟩
  · exact absurd (by rw [hh]; rfl) hreset

end Sys2Proof.Machine
end

section
/-!
PROOF. Hazards while a command is in flight (70_reset_and_hazards.md R126 to R129, R132): what the host's moves leave to
the command, what it hears of the RAMs meanwhile, and the bytes a shorter frame leaves behind.
-/

namespace Sys2Proof.Machine

/-! ### The command in flight -/

/-- Two states have the same command in flight and the same RAMs it reads and writes: the flags, the latched operands, the
RAMs and the results. -/
structure SameCommand (s t : State) : Prop where
  busy : t.busy = s.busy
  done : t.done = s.done
  err : t.err = s.err
  latch : t.latch = s.latch
  pay : t.pay = s.pay
  frm : t.frm = s.frm
  resultLen : t.resultLen = s.resultLen
  resultCksum : t.resultCksum = s.resultCksum

/-- While busy a register write is at most a new operand: a CMD write is ignored (70_reset_and_hazards.md R126). -/
theorem sameCommand_regWrite {s : State} (hb : s.busy = true) (r : Reg) (v : Word) : SameCommand s (regWrite s r v) := by
  rcases regWrite_cases s r v with ⟨-, hidle, -⟩ | ⟨-, -, h⟩ | ⟨-, h⟩ | ⟨-, h⟩ | ⟨-, h⟩ | ⟨-, h⟩ | ⟨-, h⟩
  · exact nomatch hb.symm.trans hidle
  all_goals rw [h]; constructor <;> rfl

theorem sameCommand_hear {s t : State} (h : SameCommand s t) (r : Response) : SameCommand s (hear t r) := { h with }

/-- A transaction while busy writes no RAM byte: such a write stops the model (70_reset_and_hazards.md R127). -/
theorem sameCommand_hostAccess {s t : State} {a : Access} (hb : s.busy = true) (h : hostAccess s a = .next t) :
    SameCommand s t := by
  rcases hostAccess_next h with ⟨r, rfl⟩ | ⟨r, rfl⟩ | ⟨r, v, rfl⟩ | ⟨m, i, b, hidle, -, -⟩
  · constructor <;> rfl
  · constructor <;> rfl
  · exact sameCommand_hear (sameCommand_regWrite hb r v) _
  · exact nomatch hb.symm.trans hidle

theorem sameCommand_hostPoll (s : State) : SameCommand s (hostPoll s) := by
  rw [hostPoll_eq]
  split <;> constructor <;> rfl

/-- Of the host's moves only a reset touches a command in flight. -/
theorem sameCommand_hostMove {s t : State} (hb : s.busy = true) (hreset : s.host.head? ≠ some .reset)
    (h : hostMove s = .next t) : SameCommand s t := by
  rcases hostMove_next h with ⟨-, rfl⟩ | ⟨a, rest, -, ha⟩ | ⟨rest, -, rfl⟩ | ⟨rest, hh, -⟩
  · constructor <;> rfl
  · exact { sameCommand_hostAccess (by exact hb) ha with }
  · exact { sameCommand_hostPoll { s with host := rest } with }
  · exact absurd (by rw [hh]; rfl) hreset

/-- Settles O10: while busy and not the engine's turn, a step uses up a turn and is the host's move. -/
theorem hostMovesLeaveTheCommandInFlight : Obligations.HostMovesLeaveTheCommandInFlight := by
  intro s t hb he hreset h
  rw [step_of_host_turn hb he] at h
  have hkeep := sameCommand_hostMove (s := popTurn s) hb hreset h
  exact ⟨hkeep.busy.trans hb, hkeep.done, hkeep.err, hkeep.latch, hkeep.pay, hkeep.frm, hkeep.resultLen,
    hkeep.resultCksum⟩

/-- Settles O9: the ignored write is answered, and an answer is no part of the block. -/
theorem commandWriteWhileBusyIsIgnored : Obligations.CommandWriteWhileBusyIsIgnored :=
  fun s v hb => ⟨_, hostAccess_cmd_of_busy v hb, sameRegisters_hear s s.draws .written, rfl, rfl, rfl, rfl,
    regRead_hear s .written .status⟩

/-! ### Operand registers -/

/-- An operand register's write is seen by the next read, and by nothing that a command in flight reads. -/
theorem regWrite_operand (s : State) {r : Reg} (v : Word) (hr : r = .plen ∨ r = .cap ∨ r = .ckStart ∨ r = .ckEnd) :
    regRead (regWrite s r v) r = v ∧ (regWrite s r v).cfg = s.cfg ∧ (regWrite s r v).latch = s.latch ∧
      (regWrite s r v).busy = s.busy ∧ (regWrite s r v).pay = s.pay ∧ (regWrite s r v).frm = s.frm := by
  rcases hr with rfl | rfl | rfl | rfl <;> exact ⟨rfl, rfl, rfl, rfl, rfl, rfl⟩

/-- From states that agree on what the engine reads, its step has the same effect (10_state.md R21, R30). -/
theorem engineStep_same_effect {s t u : State} (hcfg : t.cfg = s.cfg) (hlatch : t.latch = s.latch) (hpay : t.pay = s.pay)
    (hfrm : t.frm = s.frm) (h : engineStep s = .next u) :
    ∃ e, u = applyEffect s e ∧ engineStep t = .next (applyEffect t e) := by
  obtain ⟨e, he, hu⟩ := engineStep_eq_next_iff.1 h
  rw [← hcfg, ← hlatch, ← hpay, ← hfrm] at he
  exact ⟨e, hu, engineStep_eq_next_iff.2 ⟨e, he, rfl⟩⟩

/-- Settles O11: the engine's step has the same effect after the write as before it, and keeps the registers as written
for the next issue. -/
theorem operandWriteWhileBusySparesTheCommand : Obligations.OperandWriteWhileBusySparesTheCommand := by
  intro s r v hb hr
  obtain ⟨hread, hcfg, hlatch, hbusy, hpay, hfrm⟩ := regWrite_operand s v hr
  refine ⟨_, hostAccess_write_reg s r v, (regRead_hear _ _ r).trans hread, hlatch, hbusy.trans hb, fun u hu => ?_⟩
  obtain ⟨e, rfl, he⟩ := engineStep_same_effect (t := hear (regWrite s r v) .written) hcfg hlatch hpay hfrm hu
  exact ⟨_, he, rfl, hpay, rfl, rfl, rfl, fun _ => rfl⟩

/-! ### The RAMs while busy -/

theorem hostRamWrite_of_busy {s : State} (m : Ram) (i : Nat) (b : Byte) (h : s.busy = true) :
    hostRamWrite s m i b = .fault (.ramWriteWhileBusy m i) := if_pos h

/-- Settles O15: the map answers the offset with the byte, and its write while busy stops the model. -/
theorem ramWriteWhileBusyFaults : Obligations.RamWriteWhileBusyFaults := by
  intro s m i v hb hi
  rw [hostAccess_write_ram v hi, hostRamWrite_of_busy m i _ hb]

/-- Settles O16: while busy the engine's RAM answers a free byte, and PAY what it holds. -/
theorem frameReadWhileBusyAnswersAFreeByte : Obligations.FrameReadWhileBusyAnswersAFreeByte := by
  refine fun s i hb => ⟨fun hi => ?_, fun b hi hread => ?_⟩
  · exact (hostAccess_read_ram (m := .frm) hi).trans (hostRamRead_free i hb)
  · rw [hostAccess_read_ram (m := .pay) hi, hostRamRead_held i (.inl rfl), ramOf, hread]

/-- Settles O31: the shorter frame leaves the bytes past it alone, and those up to 17 + P1 are the longer frame's. -/
theorem shorterFrameLeavesStaleBytes : Obligations.ShorterFrameLeavesStaleBytes := by
  intro s₁ t₁ s₂ t₂ h₁ hok₁ hfrm h₂ hok₂ _
  obtain ⟨-, payload₁, hp₁, rfl⟩ := execEncode_ok h₁ hok₁
  obtain ⟨-, payload₂, hp₂, rfl⟩ := execEncode_ok h₂ hok₂
  refine ⟨fun k hk => ?_, fun k _ hk => written_encoded hp₁ (by omega)⟩
  rw [read_encoded_of_past hp₂ hk, hfrm]

end Sys2Proof.Machine
end

section
/-!
PROOF. WAIT (30_encoding.md R65) ends under every schedule (70_reset_and_hazards.md R133): a poll while busy uses up a turn
and leaves the command ready, so the engine's step comes, and the poll after it ends the loop.
-/

namespace Sys2Proof.Machine

theorem hostMove_wait {s : State} {rest : List Event} (h : s.host = .wait :: rest) :
    hostMove s = .next (hostPoll { s with host := rest }) := by rw [hostMove, h]

theorem hostPoll_of_busy {s : State} (h : s.busy = true) :
    hostPoll s = { hear s (.word (statusWord s)) with host := .wait :: s.host } := by
  rw [hostPoll_eq, if_pos h]

/-- The WAIT is done: its loop left after a poll that saw the completion (30_encoding.md R65). -/
def WaitEnded (rest : List Event) (t : State) : Prop :=
  t.host = rest ∧ t.busy = false ∧ t.done = true ∧ t.heard.head? = some (.word (statusWord t))

/-- On the engine's turn two steps end the WAIT: the engine's, which completes, and the poll that sees DONE. -/
theorem run_wait_of_engineTurn {s : State} {rest : List Event} (he : engineTurn s = true) (hh : s.host = .wait :: rest)
    (hready : EngineReady s) : ∃ t, run 2 s = .next t ∧ WaitEnded rest t := by
  obtain ⟨u, hu, hidle, hdone⟩ := engineStepEndsInACompletion (popTurn s) hready
  have hhost : u.host = .wait :: rest := (sameInputs_engineStep hu).host.trans hh
  have hpoll : step u = .next (hear { u with host := rest } (.word (statusWord u))) := by
    rw [step_of_idle hidle, hostMove_wait hhost, hostPoll_of_idle (by exact hidle)]
    rfl
  have hrun := (run_succ 1 ((step_of_engineTurn he).2.trans hu)).trans (run_succ 0 hpoll)
  exact ⟨_, hrun, rfl, hidle, hdone, rfl⟩

/-- On the host's turn a poll while busy only uses up the turn and is answered. -/
theorem step_wait_of_host_turn {s : State} {rest : List Event} {ts : List Agent} (hb : s.busy = true)
    (hh : s.host = .wait :: rest) (ht : s.turns = .host :: ts) :
    step s = .next { hear s (.word (statusWord s)) with turns := ts } := by
  rw [step_of_host_turn hb (engineTurn_eq_false_of_host hh ht), hostMove_wait (s := popTurn s) hh,
    hostPoll_of_busy (by exact hb), popTurn, ht, ← hh]
  rfl

/-- Settles O54, by induction on the turns that remain: with none left the engine moves, and each turn is the engine's or
a poll's. -/
theorem waitEndsUnderEverySchedule : Obligations.WaitEndsUnderEverySchedule := by
  intro s rest hb hh hready
  induction hts : s.turns generalizing s with
  | nil =>
    have he : engineTurn s = true := by simp [engineTurn, hb, hts]
    obtain ⟨t, hrun, hended⟩ := run_wait_of_engineTurn he hh hready
    exact ⟨2, t, by simp, hrun, hended⟩
  | cons agent ts ih =>
    cases agent with
    | engine =>
      obtain ⟨t, hrun, hended⟩ := run_wait_of_engineTurn (engineTurn_eq_true_of_engine hb hts) hh hready
      exact ⟨2, t, by simp, hrun, hended⟩
    | host =>
      obtain ⟨k, t, hk, hrun, hended⟩ := ih { hear s (.word (statusWord s)) with turns := ts } hb hh hready rfl
      refine ⟨k + 1, t, ?_, (run_succ k (step_wait_of_host_turn hb hh hts)).trans hrun, hended⟩
      rw [List.length_cons]
      omega

end Sys2Proof.Machine
end

section
/-!
PROOF. Reset (70_reset_and_hazards.md R121 to R123): the values it leaves, from any state, and the invariant after it.
-/

namespace Sys2Proof.Machine

@[simp] theorem regRead_resetBlock (s : State) (r : Reg) : regRead (resetBlock s) r = 0 := by
  cases r with
  | status =>
    rw [regRead_status_of_flags (resetBlock_busy s) (resetBlock_done s) (resetBlock_err s)]
    rfl
  | _ => rfl

@[simp] theorem read_ramOf_resetBlock (s : State) (m : Ram) (i : Nat) : Memory.read (ramOf (resetBlock s) m) i = none := by
  cases m <;> rfl

theorem hostMove_reset {s : State} {rest : List Event} (h : s.host = .reset :: rest) :
    hostMove s = .next (resetBlock { s with host := rest }) := by rw [hostMove, h]

/-- Settles O49: busy or not the host's move is the reset, and the state after reset is the reset of itself. -/
theorem resetValuesAndAbandonment : Obligations.ResetValuesAndAbandonment := by
  refine ⟨fun s rest hh he => ?_, regRead_resetBlock State.reset, rfl, rfl, read_ramOf_resetBlock State.reset⟩
  rcases step_cases s with ⟨-, hturn, -⟩ | ⟨-, -, hs⟩ | ⟨-, hs⟩
  · exact nomatch hturn.symm.trans he
  · exact ⟨_, hs.trans (hostMove_reset (s := popTurn s) hh), rfl, rfl, rfl, regRead_resetBlock _,
      read_ramOf_resetBlock _, rfl, rfl⟩
  · exact ⟨_, hs.trans (hostMove_reset hh), rfl, rfl, rfl, regRead_resetBlock _, read_ramOf_resetBlock _, rfl, rfl⟩

/-- Settles O58: the state after reset is the reset of itself. -/
theorem invariantHoldsAtReset : Obligations.InvariantHoldsAtReset := Inv.resetBlock State.reset

end Sys2Proof.Machine
end
